-- ==== Sys2Proof/Word.lean ====
section
/-! DEFINITION. The word types of the engine (spec/00_scope.md R5): bytes, addresses, the 9-bit program counter. -/

namespace Sys2Proof

/-- A byte, 0 to 255: a register's contents, a memory cell, an opcode, an operand (R5, R7). -/
abbrev Byte := BitVec 8

/-- An address inside memory, 0 to 255 (R5 "Address width"). -/
abbrev Addr := BitVec 8

/-- The program counter: 9 bits, so that the sentinel 256 is a value it can hold (R5, R15). -/
abbrev Pc := BitVec 9

/-- A legal register index, 0 to 7 (R11). -/
abbrev RegIndex := Fin 8

end Sys2Proof
end

