-- ==== Sys2Proof/Syntax.lean ====
section
/-! DEFINITION. The instructions: one constructor per row of spec/opcode_table.json (spec/30_encoding.md R55, R56, R59). -/

namespace Sys2Proof

/-- An instruction as it is fetched. A register operand is the RAW operand byte: every value decodes, and a value 8 to 255
raises a fault when the instruction executes (R54; spec/60_exceptions.md R143). -/
inductive Instr where
  /-- Format Z (R92). -/
  | hlt
  /-- Format Z (R111). -/
  | ret
  /-- Format R (R101). -/
  | push (a : Byte)
  /-- Format R (R102). -/
  | pop (a : Byte)
  /-- Format R (R91). -/
  | prn (a : Byte)
  /-- Format R (R110). -/
  | call (a : Byte)
  /-- Format RI (R90). -/
  | ldi (a imm : Byte)
  /-- Format RR (R121). -/
  | add (a b : Byte)
  /-- Format RR (R122). -/
  | sub (a b : Byte)
  /-- Format RR (R123). -/
  | mul (a b : Byte)
  /-- Format RR (R124). -/
  | div (a b : Byte)
  /-- Format RR (R125). -/
  | and (a b : Byte)
  /-- A reserved name, an unsupported instruction (R59); no operand is fetched. -/
  | cmp
  /-- A reserved name (R59). -/
  | dec
  /-- A reserved name (R59). -/
  | inc
  /-- A reserved name (R59). -/
  | mod
  /-- A reserved name (R59). -/
  | not
  /-- A reserved name (R59). -/
  | or
  /-- A reserved name (R59). -/
  | xor
  deriving DecidableEq, Repr

end Sys2Proof
end

