-- ==== Sys2Proof/WellFormed.lean ====
section
/-! DEFINITION. Which instructions an assembler may write (spec/30_encoding.md R54, R59, R62): a wired mnemonic whose register
operands are 0 to 7. The machine runs ill-formed ones too, as the spec says: each raises its fault. -/

namespace Sys2Proof

/-- The instruction has a handler or an ALU function: it is one of the twelve of R56, not one of the seven reserved names of R59. -/
def Instr.wired : Instr → Bool
  | .hlt | .ret | .push _ | .pop _ | .prn _ | .call _ | .ldi _ _ => true
  | .add _ _ | .sub _ _ | .mul _ _ | .div _ _ | .and _ _ => true
  | .cmp | .dec | .inc | .mod | .not | .or | .xor => false

/-- The operand bytes of an instruction that are register indices, operand A first. LDI's second operand is an immediate (R54). -/
def Instr.registerOperands : Instr → List Byte
  | .hlt | .ret => []
  | .push a | .pop a | .prn a | .call a => [a]
  | .ldi a _ => [a]
  | .add a b | .sub a b | .mul a b | .div a b | .and a b => [a, b]
  | .cmp | .dec | .inc | .mod | .not | .or | .xor => []

/-- Every register operand is a legal index, 0 to 7 (R54). -/
def Instr.registersLegal (i : Instr) : Bool := i.registerOperands.all fun r => decide (r.toNat < 8)

/-- Wired, with legal register operands. -/
def Instr.wellFormed (i : Instr) : Bool := i.wired && i.registersLegal

end Sys2Proof
end

