-- ==== Sys2Proof/Decode.lean ====
section
/-! DEFINITION. The decoder of spec/30_encoding.md (R50 to R61) from bytes in increasing address order, and the encoder. -/

namespace Sys2Proof

/-! ### The opcode map (R56, R59) -/

@[simp] abbrev opHlt : Byte := 0b00000001#8
@[simp] abbrev opRet : Byte := 0b00010001#8
@[simp] abbrev opPush : Byte := 0b01000101#8
@[simp] abbrev opPop : Byte := 0b01000110#8
@[simp] abbrev opPrn : Byte := 0b01000111#8
@[simp] abbrev opCall : Byte := 0b01010000#8
@[simp] abbrev opLdi : Byte := 0b10000010#8
@[simp] abbrev opAdd : Byte := 0b10100000#8
@[simp] abbrev opSub : Byte := 0b10100001#8
@[simp] abbrev opMul : Byte := 0b10100010#8
@[simp] abbrev opDiv : Byte := 0b10100011#8
@[simp] abbrev opAnd : Byte := 0b10101000#8

/-! The seven reserved names. PRESUMED: the spec gives these values from general knowledge (R59, G1); log entry 5. -/

@[simp] abbrev opCmp : Byte := 0b10100111#8
@[simp] abbrev opDec : Byte := 0b01100110#8
@[simp] abbrev opInc : Byte := 0b01100101#8
@[simp] abbrev opMod : Byte := 0b10100100#8
@[simp] abbrev opNot : Byte := 0b01101001#8
@[simp] abbrev opOr : Byte := 0b10101010#8
@[simp] abbrev opXor : Byte := 0b10101011#8

/-- The twelve wired opcodes, in the order of R80. -/
def wiredOpcodes : List Byte :=
  [opHlt, opRet, opPush, opPop, opPrn, opCall, opLdi, opAdd, opSub, opMul, opDiv, opAnd]

/-- Selection is by equality of the whole byte (R56). -/
def isWired (op : Byte) : Bool := wiredOpcodes.contains op

/-- The operand count `n = op[7:6]` (R52). -/
def operandCount (op : Byte) : Nat := (op >>> 6).toNat

/-- The sets-PC flag `P = op[4]` (R53). -/
def setsPc (op : Byte) : Bool := op.getLsbD 4

/-! ### Decoding -/

/-- Why bytes are not an instruction. -/
inductive DecodeError where
  /-- There is no byte at all. -/
  | noByte
  /-- The first byte is no opcode of the table (R58). -/
  | unsupported (op : Byte)
  /-- The opcode is wired and one of its operand bytes is not there (R61, R74). -/
  | operandMissing (op : Byte)
  deriving DecidableEq, Repr

/-- An instruction with two operand bytes (formats RI and RR). -/
def decodeTwo (op : Byte) (mk : Byte → Byte → Instr) : List Byte → Except DecodeError (Instr × List Byte)
  | a :: b :: rest => .ok (mk a b, rest)
  | _ => .error (.operandMissing op)

/-- An instruction with one operand byte (format R). -/
def decodeOne (op : Byte) (mk : Byte → Instr) : List Byte → Except DecodeError (Instr × List Byte)
  | a :: rest => .ok (mk a, rest)
  | [] => .error (.operandMissing op)

/-- The instruction that starts a list of bytes, and the bytes after it. A reserved name takes its opcode byte only:
no operand of it is fetched (R58, R59). -/
def decode : List Byte → Except DecodeError (Instr × List Byte)
  | [] => .error .noByte
  | op :: rest =>
    if op = opHlt then .ok (.hlt, rest)
    else if op = opRet then .ok (.ret, rest)
    else if op = opPush then decodeOne op .push rest
    else if op = opPop then decodeOne op .pop rest
    else if op = opPrn then decodeOne op .prn rest
    else if op = opCall then decodeOne op .call rest
    else if op = opLdi then decodeTwo op .ldi rest
    else if op = opAdd then decodeTwo op .add rest
    else if op = opSub then decodeTwo op .sub rest
    else if op = opMul then decodeTwo op .mul rest
    else if op = opDiv then decodeTwo op .div rest
    else if op = opAnd then decodeTwo op .and rest
    else if op = opCmp then .ok (.cmp, rest)
    else if op = opDec then .ok (.dec, rest)
    else if op = opInc then .ok (.inc, rest)
    else if op = opMod then .ok (.mod, rest)
    else if op = opNot then .ok (.not, rest)
    else if op = opOr then .ok (.or, rest)
    else if op = opXor then .ok (.xor, rest)
    else .error (.unsupported op)

/-! ### Encoding -/

/-- The opcode byte of an instruction (R56, R59). -/
def Instr.opcode : Instr → Byte
  | .hlt => opHlt
  | .ret => opRet
  | .push _ => opPush
  | .pop _ => opPop
  | .prn _ => opPrn
  | .call _ => opCall
  | .ldi _ _ => opLdi
  | .add _ _ => opAdd
  | .sub _ _ => opSub
  | .mul _ _ => opMul
  | .div _ _ => opDiv
  | .and _ _ => opAnd
  | .cmp => opCmp
  | .dec => opDec
  | .inc => opInc
  | .mod => opMod
  | .not => opNot
  | .or => opOr
  | .xor => opXor

/-- The operand bytes of an instruction, operand A first (R55). -/
def Instr.operands : Instr → List Byte
  | .hlt | .ret => []
  | .push a | .pop a | .prn a | .call a => [a]
  | .ldi a imm => [a, imm]
  | .add a b | .sub a b | .mul a b | .div a b | .and a b => [a, b]
  | .cmp | .dec | .inc | .mod | .not | .or | .xor => []

/-- The bytes of an instruction in increasing address order (R55). -/
def encode (i : Instr) : List Byte := i.opcode :: i.operands

/-! ### Words numbered as spec/opcode_table.json numbers them -/

/-- The three bytes of an instruction whose `nbits` low bits are those of `w`, the first byte the least significant. -/
def tableBytes (nbits w : Nat) : List Byte :=
  let v := w % 2 ^ nbits
  [BitVec.ofNat 8 v, BitVec.ofNat 8 (v / 256), BitVec.ofNat 8 (v / 65536)]

/-- The instruction the decoder reads from those bytes. -/
def decodeTableWord (nbits w : Nat) : Option Instr :=
  match decode (tableBytes nbits w) with
  | .ok (i, _) => some i
  | .error _ => none

end Sys2Proof
end

