-- ==== Sys2Proof/Config.lean ====
section
/-! DEFINITION. The implementation parameters of spec/00_scope.md R5 and the reset values of spec/10_state.md R24.
The spec leaves no value free (spec/93_implementation_defined.md section 1), so nothing here is opaque. -/

namespace Sys2Proof

/-- `MEMSIZE`: the number of memory cells. -/
abbrev Config.memSize : Nat := 256

/-- `SENTINEL`: the end-of-memory value of the program counter. -/
abbrev Config.sentinel : Pc := 256#9

/-- `PC_RESET`. -/
abbrev Config.pcReset : Pc := 0#9

/-- `SP_RESET`. -/
abbrev Config.spReset : Byte := 0xF4#8

/-- `REG_RESET`, the default of the open parameter: decision D15. DESIGN CHOICE, unsafe: log entry 1. -/
abbrev Config.regReset : Byte := 0x00#8

/-- What a memory cell that nothing has written holds: decision D16. DESIGN CHOICE, unsafe: log entry 2. -/
abbrev Config.blankByte : Byte := 0x00#8

end Sys2Proof
end

