-- ==== Sys2Proof/Machine/Memory.lean ====
section
/-! DEFINITION. The memory array of spec/20_memory.md (R30 to R34) as plain data in one canonical form. -/

namespace Sys2Proof.Machine

/-- Main memory: the cells that do not hold `Config.blankByte`, by rising address. -/
abbrev Memory := List Host.Cell

/-- The byte at an address (R32, the read itself). -/
def Memory.byteAt : Memory → Nat → Byte
  | [], _ => Config.blankByte
  | (b, w) :: rest, a => if a = b then w else Memory.byteAt rest a

/-- A memory without its entry at `a`. -/
def Memory.erase (m : Memory) (a : Nat) : Memory := m.filter fun c => decide (c.1 ≠ a)

/-- An entry put in front of the first one at a higher address. -/
def Memory.insert (a : Nat) (v : Byte) : Memory → Memory
  | [] => [(a, v)]
  | (b, w) :: rest => if a < b then (a, v) :: (b, w) :: rest else (b, w) :: Memory.insert a v rest

/-- `M[a] <- v` for one of the 256 cells (R33, the write itself); an address that is no cell is left alone. Writing the blank
byte removes the entry, so that the form stays canonical. -/
def Memory.setByte (m : Memory) (a : Nat) (v : Byte) : Memory :=
  if a < Config.memSize then
    if v = Config.blankByte then m.erase a else Memory.insert a v (m.erase a)
  else m

/-- Bytes written to successive addresses (R171: "into successive memory addresses"). -/
def Memory.load (m : Memory) (a : Nat) : List Byte → Memory
  | [] => m
  | b :: bs => Memory.load (m.setByte a b) (a + 1) bs

/-- Addresses strictly rise from `lo`, each is one of the 256 cells, and no entry holds the blank byte. -/
def Memory.wfFrom : Nat → Memory → Bool
  | _, [] => true
  | lo, (a, v) :: rest =>
    decide (lo ≤ a) && decide (a < Config.memSize) && decide (v ≠ Config.blankByte) && Memory.wfFrom (a + 1) rest

/-- The canonical form. -/
def Memory.wf (m : Memory) : Bool := Memory.wfFrom 0 m

end Sys2Proof.Machine
end

