-- ==== Sys2Proof/Machine/State.lean ====
section
/-! DEFINITION. The architectural state (spec/10_state.md R10): exactly seven items, as plain data; the reasons a step can stop. -/

namespace Sys2Proof.Machine

/-- The run state (R18). -/
inductive RunState where
  /-- The engine performs cycles. -/
  | running
  /-- A HLT was executed. -/
  | halted
  /-- `pc` reached the sentinel 256. -/
  | endOfMemory
  /-- A fatal condition stopped the engine. -/
  | faulted
  deriving DecidableEq, Repr

/-- Where an out-of-range value was formed (spec/60_exceptions.md R142). -/
inductive Site where
  | operandFetch
  | stackPush
  | returnAddress
  | stackPop
  deriving DecidableEq, Repr

/-- Which operand of an instruction (spec/60_exceptions.md R143). -/
inductive Position where
  /-- Operand A. -/
  | operandA
  /-- Operand B. -/
  | operandB
  deriving DecidableEq, Repr

/-- A fault cause with its `info` (spec/60_exceptions.md R140, R145): the two are one value, so that no record can hold the
info of another cause. -/
inductive Cause where
  /-- No info (R141). -/
  | unsupportedInstruction
  /-- `(site, value)` (R142). -/
  | memoryOutOfRange (site : Site) (value : Int)
  /-- `(position, index)`, the index as the operand byte had it (R143). -/
  | registerIndexOutOfRange (position : Position) (index : Byte)
  /-- `(a, b)`, the two register indices (R144). -/
  | divideByZero (a b : RegIndex)
  deriving DecidableEq, Repr

/-- The code of a cause (R140). -/
def Cause.code : Cause → Nat
  | .unsupportedInstruction => 1
  | .memoryOutOfRange _ _ => 2
  | .registerIndexOutOfRange _ _ => 3
  | .divideByZero _ _ => 4

/-- The fault record `(cause, at, opcode, info)` (spec/10_state.md R19; spec/60_exceptions.md R145). -/
structure FaultRecord where
  /-- The cause and its info. -/
  cause : Cause
  /-- `at`: the value of `pc` when the fault was raised, 0 to 255 in every record a cycle writes (log entries 8 and 13). -/
  atPc : Pc
  /-- The byte `M[at]`. -/
  opcode : Byte
  deriving DecidableEq, Repr

/-- The state of the machine (R10). -/
structure State where
  /-- `x[0..7]` (R11). -/
  x : Vector Byte 8
  /-- `M[0..255]` (spec/20_memory.md R30). -/
  mem : Memory
  /-- The program counter, 0 to 256 (R14, R15). -/
  pc : Pc
  /-- The stack pointer (R16). -/
  sp : Byte
  /-- The run state (R18). -/
  run : RunState
  /-- The fault record, or none (R19). -/
  fault : Option FaultRecord
  /-- The bytes PRN emitted, oldest first (R20). -/
  out : List Byte
  deriving DecidableEq, Repr

/-- How a step stops without a next state. The hardware's own faults are NOT here: they are next states with
`run = faulted` (spec/60_exceptions.md R146). -/
inductive Fault where
  /-- Raised by `step`, and by a meaning that raises a fault, when `pc` is 256 or more, where there is no opcode byte to fetch
  or to record. Safe: the spec rules such Running states out (R15), and no run reaches one,
  whatever the host writes between steps (log entry 4). -/
  | pcOutsideMemory
  deriving DecidableEq, Repr

/-- Why a step has no meaning. -/
inductive Refusal where
  /-- Raised by an arm of `exec` whose instruction has no meaning yet; no arm is left so. Safe. -/
  | notModelled (mnemonic : String)
  deriving DecidableEq, Repr

/-- What a step or a meaning answers. -/
abbrev Result := Host.Outcome State Fault Refusal

/-- The state right after reset is released (R24, spec/70_reset_and_hazards.md R170), with the default register values
(log entry 1) and the image in which the loader wrote nothing (log entry 2). -/
def State.reset : State where
  x := Vector.replicate 8 Config.regReset
  mem := []
  pc := Config.pcReset
  sp := Config.spReset
  run := .running
  fault := none
  out := []

/-- The state a run starts from: reset with the two launch parameters, the register values `REG_RESET` (R25) and the 256 bytes
`IMAGE` (spec/70_reset_and_hazards.md R171). -/
def State.launch (regs : Vector Byte 8) (image : Vector Byte 256) : State :=
  { State.reset with x := regs, mem := Memory.load [] 0 image.toList }

end Sys2Proof.Machine
end

