-- ==== Sys2Proof/Machine/Ops.lean ====
section
/-! DEFINITION. The named operations over registers and memory, the one bounds check, taking a fault, and fetching. -/

namespace Sys2Proof.Machine

/-! ### Registers and memory -/

/-- `x[i]` (spec/10_state.md R11). -/
def State.reg (s : State) (i : RegIndex) : Byte := s.x[i.val]

/-- `x[i] <- v` (R11). -/
def State.setReg (s : State) (i : RegIndex) (v : Byte) : State := { s with x := s.x.set i.val v }

/-- `M[a]` (spec/20_memory.md R32). -/
def State.readByte (s : State) (a : Nat) : Byte := s.mem.byteAt a

/-- `M[a] <- v` (spec/20_memory.md R33). -/
def State.writeByte (s : State) (a : Addr) (v : Byte) : State := { s with mem := s.mem.setByte a.toNat v }

/-- `out <- out ++ [v]` (spec/10_state.md R20). -/
def State.emit (s : State) (v : Byte) : State := { s with out := s.out ++ [v] }

/-- Zero extension of a byte to the program counter (spec/00_scope.md R8). -/
def zext9 (v : Byte) : Pc := v.setWidth 9

/-! ### The bounds check -/

/-- A number that is to be an address, a stack pointer or a return address: outside 0 to 255 it is never wrapped and never
clamped, it raises `MemoryOutOfRange` (spec/20_memory.md R34; spec/60_exceptions.md R142). -/
def checkAddr (site : Site) (v : Int) : Except Cause Addr :=
  if 0 ≤ v ∧ v ≤ 255 then .ok (BitVec.ofInt 8 v) else .error (.memoryOutOfRange site v)

/-- The cell a push writes, `sp + 1` (spec/42_stack.md R100, R101). -/
def pushSlot (s : State) : Except Cause Addr := checkAddr .stackPush ((s.sp.toNat : Int) + 1)

/-- The stack pointer after a pop, `sp - 1` (R100, R102). -/
def poppedSp (s : State) : Except Cause Addr := checkAddr .stackPop ((s.sp.toNat : Int) - 1)

/-- The address of the instruction after a CALL, `pc + 2`, as it is stored in a cell (spec/43_control_transfer.md R110). -/
def returnAddress (s : State) : Except Cause Byte := checkAddr .returnAddress ((s.pc.toNat : Int) + 2)

/-! ### Taking a fault -/

/-- Fault entry (spec/60_exceptions.md R146): the record is written, `run <- Faulted`, nothing else changes. There is no return
from it (R150). Where `pc` is 256 or more there is no byte `M[pc]` to record: log entry 4. -/
def raise (c : Cause) (s : State) : Result :=
  if s.pc.toNat < Config.memSize then
    .next { s with run := .faulted, fault := some { cause := c, atPc := s.pc, opcode := s.readByte s.pc.toNat } }
  else .fault .pcOutsideMemory

/-- One check of an instruction: go on with the value it gives, or raise the fault it names, before anything has changed
(spec/40_cycle.md R78, R79). -/
def orRaise {α : Type} (e : Except Cause α) (s : State) (k : α → Result) : Result :=
  match e with
  | .ok v => k v
  | .error c => raise c s

/-! ### Fetching -/

/-- The bytes at `pc`, `pc + 1` and `pc + 2` that lie inside memory: the guarded read-ahead of the run loop, which cannot be
told from reading only the operands there are (spec/40_cycle.md R72, R74; spec/20_memory.md R37). -/
def codeWindow (s : State) : List Byte :=
  ([s.pc.toNat, s.pc.toNat + 1, s.pc.toNat + 2].filter fun a => decide (a < Config.memSize)).map s.readByte

/-- Fetch and decode (spec/40_cycle.md R72 to R74). -/
def fetch (s : State) : Except DecodeError (Instr × List Byte) := decode (codeWindow s)

/-- What a failed fetch does: an unsupported opcode (R73) and an operand past address 255 (R74) raise their faults; without an
opcode byte the step stops (log entry 4). -/
def fetchFailed (e : DecodeError) (s : State) : Result :=
  match e with
  | .noByte => .fault .pcOutsideMemory
  | .unsupported _ => raise .unsupportedInstruction s
  | .operandMissing _ => raise (.memoryOutOfRange .operandFetch 256) s

/-- Bytes put at `pc` and after it, as the host's load port would place them. -/
def State.withCode (s : State) (bytes : List Byte) : State := { s with mem := s.mem.load s.pc.toNat bytes }

end Sys2Proof.Machine
end

