-- ==== Sys2Proof/Machine/Flags.lean ====
section
/-! DEFINITION. The machine has no status flags (spec/10_state.md R21). The one flag there is, the opcode's sets-PC flag, decides
the PC update that ends a cycle (spec/40_cycle.md R76, R77). -/

namespace Sys2Proof.Machine

/-- The PC update of the run loop for the opcode that was just executed, and the end of memory: `P = 0` advances by the
length, `P = 1` leaves `pc` as the instruction set it, and `pc = 256` ends the run. HLT does not come here (R92). -/
def pcUpdate (op : Byte) (s : State) : State :=
  let pc' := if setsPc op then s.pc else s.pc + BitVec.ofNat 9 (operandCount op + 1)
  { s with pc := pc', run := if pc' = Config.sentinel then .endOfMemory else s.run }

end Sys2Proof.Machine
end

