-- ==== Sys2Proof/Machine/Operands.lean ====
section
/-! DEFINITION. The operand forms: a register index, checked and never masked (spec/30_encoding.md R54; spec/60_exceptions.md
R143), and LDI's immediate, which is the operand byte as it stands (R57). -/

namespace Sys2Proof.Machine

/-- An operand byte as a register index (R54, R143). -/
def regIndex (p : Position) (b : Byte) : Except Cause RegIndex :=
  if h : b.toNat < 8 then .ok ⟨b.toNat, h⟩ else .error (.registerIndexOutOfRange p b)

/-- DIV's check of its divisor (spec/44_alu.md R124; spec/60_exceptions.md R144). -/
def divisorCheck (s : State) (i j : RegIndex) : Except Cause Unit :=
  if s.reg j = 0#8 then .error (.divideByZero i j) else .ok ()

/-- The other ALU functions check nothing of their own (spec/44_alu.md R120). -/
def noCheck (_ : State) (_ _ : RegIndex) : Except Cause Unit := .ok ()

end Sys2Proof.Machine
end

