-- ==== Sys2Proof/Machine/Alu.lean ====
section
/-! DEFINITION. ADD, SUB, MUL, DIV, AND (spec/44_alu.md). -/

namespace Sys2Proof.Machine

/-! ### The five functions (R121 to R126): unsigned bytes, results modulo 256, no carry or overflow anywhere -/

/-- `(u + v) mod 256` (R121). -/
def aluAdd (u v : Byte) : Byte := u + v

/-- `(u - v) mod 256` (R122). -/
def aluSub (u v : Byte) : Byte := u - v

/-- `(u * v) mod 256` (R123). -/
def aluMul (u v : Byte) : Byte := u * v

/-- `u div v`, the unsigned quotient rounded toward zero (R124); DIV has checked `v` to be non-zero. -/
def aluDiv (u v : Byte) : Byte := u / v

/-- `u & v` (R125). -/
def aluAnd (u v : Byte) : Byte := u &&& v

/-- The frame every ALU instruction shares (R120): index A, index B, the checks of `f`, then the write; both sources are read
before it. -/
def aluFrame (op : Byte) (check : State → RegIndex → RegIndex → Except Cause Unit) (f : Byte → Byte → Byte)
    (a b : Byte) (s : State) : Result :=
  orRaise (regIndex .operandA a) s fun i =>
  orRaise (regIndex .operandB b) s fun j =>
  orRaise (check s i j) s fun _ =>
  .next (pcUpdate op (s.setReg i (f (s.reg i) (s.reg j))))

/-- ADD (R121). -/
def execAdd (a b : Byte) (s : State) : Result := aluFrame opAdd noCheck aluAdd a b s

/-- SUB (R122). -/
def execSub (a b : Byte) (s : State) : Result := aluFrame opSub noCheck aluSub a b s

/-- MUL (R123). -/
def execMul (a b : Byte) (s : State) : Result := aluFrame opMul noCheck aluMul a b s

/-- DIV (R124). -/
def execDiv (a b : Byte) (s : State) : Result := aluFrame opDiv divisorCheck aluDiv a b s

/-- AND (R125). -/
def execAnd (a b : Byte) (s : State) : Result := aluFrame opAnd noCheck aluAnd a b s

end Sys2Proof.Machine
end

