-- ==== Sys2Proof/Machine/ControlTransfer.lean ====
section
/-! DEFINITION. CALL, RET (spec/43_control_transfer.md; spec/90_conflicts.md C2, C3): CALL pushes as PUSH does, RET pops as POP
does. -/

namespace Sys2Proof.Machine

/-- CALL (R110). -/
def execCall (a : Byte) (s : State) : Result :=
  orRaise (regIndex .operandA a) s fun i =>
  orRaise (pushSlot s) s fun slot =>
  orRaise (returnAddress s) s fun ret =>
  .next (pcUpdate opCall ({ s with sp := slot, pc := zext9 (s.reg i) }.writeByte slot ret))

/-- RET (R111). -/
def execRet (s : State) : Result :=
  orRaise (poppedSp s) s fun below =>
  .next (pcUpdate opRet { s with sp := below, pc := zext9 (s.readByte s.sp.toNat) })

end Sys2Proof.Machine
end

