-- ==== Sys2Proof/Machine/DataOutputHalt.lean ====
section
/-! DEFINITION. LDI, PRN, HLT (spec/41_data_output_halt.md). A meaning is the whole cycle after the fetch: the instruction's own
effect and the PC update that follows it (log entry 7). -/

namespace Sys2Proof.Machine

/-- LDI (R90). -/
def execLdi (a imm : Byte) (s : State) : Result :=
  orRaise (regIndex .operandA a) s fun i => .next (pcUpdate opLdi (s.setReg i imm))

/-- PRN (R91). -/
def execPrn (a : Byte) (s : State) : Result :=
  orRaise (regIndex .operandA a) s fun i => .next (pcUpdate opPrn (s.emit (s.reg i)))

/-- HLT (R92): no PC update follows. -/
def execHlt (s : State) : Result := .next { s with run := .halted }

end Sys2Proof.Machine
end

