-- ==== Sys2Proof/Machine/Reserved.lean ====
section
/-! DEFINITION. The seven reserved names (spec/30_encoding.md R59): each raises `UnsupportedInstruction` like any byte outside the
twelve (spec/60_exceptions.md R141). -/

namespace Sys2Proof.Machine

/-- CMP (R59). -/
def execCmp (s : State) : Result := raise .unsupportedInstruction s

/-- DEC (R59). -/
def execDec (s : State) : Result := raise .unsupportedInstruction s

/-- INC (R59). -/
def execInc (s : State) : Result := raise .unsupportedInstruction s

/-- MOD (R59). -/
def execMod (s : State) : Result := raise .unsupportedInstruction s

/-- NOT (R59). -/
def execNot (s : State) : Result := raise .unsupportedInstruction s

/-- OR (R59). -/
def execOr (s : State) : Result := raise .unsupportedInstruction s

/-- XOR (R59). -/
def execXor (s : State) : Result := raise .unsupportedInstruction s

end Sys2Proof.Machine
end

