-- ==== Sys2Proof/Machine/Stack.lean ====
section
/-! DEFINITION. PUSH, POP (spec/42_stack.md): pushes increment then write, pops read then decrement (R100). -/

namespace Sys2Proof.Machine

/-- PUSH (R101). -/
def execPush (a : Byte) (s : State) : Result :=
  orRaise (regIndex .operandA a) s fun i =>
  orRaise (pushSlot s) s fun slot =>
  .next (pcUpdate opPush ({ s with sp := slot }.writeByte slot (s.reg i)))

/-- POP (R102): reads at the old `sp`. -/
def execPop (a : Byte) (s : State) : Result :=
  orRaise (regIndex .operandA a) s fun i =>
  orRaise (poppedSp s) s fun below =>
  .next (pcUpdate opPop ({ s with sp := below }.setReg i (s.readByte s.sp.toNat)))

end Sys2Proof.Machine
end

