-- ==== Sys2Proof/Machine/Step.lean ====
section
/-! DEFINITION. One step (spec/40_cycle.md R80, R82) and the placing of an instruction where the next step fetches it. -/

namespace Sys2Proof.Machine

/-- One step request: one fetch-decode-execute cycle if Running, nothing otherwise (R71, R82). -/
def step (s : State) : Host.Outcome State Fault Refusal :=
  match s.run with
  | .running =>
    match fetch s with
    | .ok (i, _) => exec i s
    | .error e => fetchFailed e s
  | .halted => .next s
  | .endOfMemory => .next s
  | .faulted => .next s

/-- The instruction whose bits are `w` stored at `pc`, and the engine Running so that it fetches (log entry 11). -/
def State.withFetchWord (s : State) (nbits w : Nat) : State :=
  { s.withCode (tableBytes nbits w) with run := .running }

end Sys2Proof.Machine
end

