-- ==== Sys2Proof/Machine/HostPort.lean ====
section
/-! DEFINITION. What the host can do to the block (spec/00_scope.md R6; spec/40_cycle.md R82; spec/70_reset_and_hazards.md R170 to
R172), each as a function on State: none of it happens inside a step. -/

namespace Sys2Proof.Machine

/-- Reset with an image: whatever the state was, a run starts again (R170, R172). -/
def hostReset (image : Vector Byte 256) (_ : State) : State :=
  State.launch (Vector.replicate 8 Config.regReset) image

/-- A number of step requests one after another (spec/40_cycle.md R81, R82): `Run` repeats the step while Running, and a step
request in a terminal state changes nothing, so a long enough sequence of requests is the run. -/
def runFor : Nat → State → Result
  | 0, s => .next s
  | k + 1, s =>
    match step s with
    | .next t => runFor k t
    | .fault f => .fault f
    | .refused r => .refused r

/-- A write of the inspection interface, made between steps or while not Running: "read and write access to every piece of
state" (spec/00_scope.md R6; decision D20), so one for each of the seven items of spec/10_state.md R10; `pc` takes 0 to 255
(spec/40_cycle.md R82). Log entry 9. -/
inductive HostWrite where
  | reg (i : RegIndex) (v : Byte)
  | mem (a : Addr) (v : Byte)
  | pc (a : Addr)
  | sp (v : Byte)
  | run (r : RunState)
  | fault (r : FaultRecord)
  | out (bytes : List Byte)
  deriving DecidableEq, Repr

/-- "a host write is simply a change of the state the next step starts from" (spec/20_memory.md R45). A terminal run state is
"left only by reset" (decision D18; spec/70_reset_and_hazards.md R170), so `run` takes a write only while it is Running; a
record is held only by a Faulted engine and "written once and never cleared except by reset" (spec/10_state.md R19), so `fault`
takes one only while the engine is Faulted and holds none (DESIGN CHOICE, log entry 9). What such a record may hold the spec
does not say: any is taken, unchecked against `pc` and `M` (DESIGN CHOICE, log entry 13). -/
def hostWrite (w : HostWrite) (s : State) : State :=
  match w with
  | .reg i v => s.setReg i v
  | .mem a v => s.writeByte a v
  | .pc a => { s with pc := zext9 a }
  | .sp v => { s with sp := v }
  | .run r => if s.run = .running then { s with run := r } else s
  | .fault r => if s.run = .faulted ∧ s.fault = none then { s with fault := some r } else s
  | .out bytes => { s with out := bytes }

/-- Host writes one after another, the first of the list first. -/
def hostWrites : List HostWrite → State → State
  | [], s => s
  | w :: ws, s => hostWrites ws (hostWrite w s)

/-- What the host can ask of the block (spec/00_scope.md R6): reset with an image loaded, a step, an inspection write. -/
inductive HostRequest where
  | reset (image : Vector Byte 256)
  | step
  | write (w : HostWrite)
  deriving DecidableEq, Repr

/-- One request served. -/
def serve (q : HostRequest) (s : State) : Result :=
  match q with
  | .reset image => .next (hostReset image s)
  | .step => Sys2Proof.Machine.step s
  | .write w => .next (hostWrite w s)

/-- Requests served one after another, the first of the list first: what the host does with the block
(spec/70_reset_and_hazards.md R172). -/
def serveAll : List HostRequest → State → Result
  | [], s => .next s
  | q :: qs, s =>
    match serve q s with
    | .next t => serveAll qs t
    | .fault f => .fault f
    | .refused r => .refused r

end Sys2Proof.Machine
end

