-- ==== Sys2Proof/Safety.lean ====
section
/-! DEFINITION. The invariant of the machine, what a safe run is, and the vocabulary the statements are written in. -/

namespace Sys2Proof.Machine

/-! ### The invariant -/

/-- What holds of every state of a run. -/
structure State.Inv (s : State) : Prop where
  /-- Memory is in its canonical form, so it has exactly the 256 cells of spec/20_memory.md R30. -/
  memCanonical : s.mem.wf = true
  /-- `pc` is 0 to 256 (spec/10_state.md R15). -/
  pcBound : s.pc.toNat ≤ 256
  /-- The sentinel and the run state EndOfMemory go together (R15; spec/70_reset_and_hazards.md R173). -/
  sentinel : s.pc.toNat = 256 ↔ s.run = .endOfMemory
  /-- A fault record is held exactly when the engine is Faulted (R19). -/
  faultIff : s.fault.isSome = true ↔ s.run = .faulted
  /-- The record names the instruction `pc` is left at (spec/60_exceptions.md R145, R146). -/
  record : ∀ r, s.fault = some r → r.atPc = s.pc ∧ r.opcode = s.readByte s.pc.toNat

/-- How a program ends well: a HLT was executed and no fault is recorded. The spec leaves it to the claim whether EndOfMemory counts
too (spec/70_reset_and_hazards.md R173; spec/93_implementation_defined.md section 2); this definition does not count it:
DESIGN CHOICE, log entry 14. -/
def State.Success (s : State) : Prop := s.run = .halted ∧ s.fault = none

/-- A run has ended exactly when it is not Running (spec/70_reset_and_hazards.md R173). -/
def State.Ended (s : State) : Prop := s.run ≠ .running

/-! ### What is unchanged -/

/-- Every general register holds what it held. -/
def SameRegs (s t : State) : Prop := ∀ j : RegIndex, t.reg j = s.reg j

/-- Every general register but one holds what it held. -/
def SameRegsBut (s t : State) (i : RegIndex) : Prop := ∀ j : RegIndex, j ≠ i → t.reg j = s.reg j

/-- Every byte of memory reads as before. -/
def SameMem (s t : State) : Prop := ∀ a : Nat, t.readByte a = s.readByte a

/-- Every byte of memory but the one at `a` reads as before. -/
def SameMemBut (s t : State) (a : Nat) : Prop := ∀ b : Nat, b ≠ a → t.readByte b = s.readByte b

/-! ### The shapes of an outcome -/

/-- The engine is Running and the instruction at `pc`, with `n` operand bytes, lies inside memory: what R74 of
spec/40_cycle.md has shown before an instruction executes. -/
def Ready (s : State) (n : Nat) : Prop := s.run = .running ∧ s.pc.toNat + n ≤ 255

/-- `pc` moved past an instruction of `len` bytes, and the run has ended exactly when that reached the sentinel
(spec/40_cycle.md R76, R77). -/
def AdvancedBy (s t : State) (len : Nat) : Prop :=
  t.pc.toNat = s.pc.toNat + len ∧ t.run = if s.pc.toNat + len = 256 then .endOfMemory else .running

/-- The outcome is fault entry for `c` (spec/60_exceptions.md R146): the record is written, the engine is Faulted, and `x`, `M`,
`pc`, `sp` and `out` are as before. -/
def Raises (s : State) (c : Cause) (o : Result) : Prop :=
  ∃ t, o = .next t ∧ t.run = .faulted ∧
    t.fault = some { cause := c, atPc := s.pc, opcode := s.readByte s.pc.toNat } ∧
    SameRegs s t ∧ SameMem s t ∧ t.pc = s.pc ∧ t.sp = s.sp ∧ t.out = s.out

/-- The byte at `pc` is `op`, a byte of memory. -/
def OpcodeAt (s : State) (op : Byte) : Prop := s.pc.toNat ≤ 255 ∧ s.readByte s.pc.toNat = op

/-- These bytes stand at `pc` in increasing address order, all inside memory. -/
def CodeAt (s : State) (bytes : List Byte) : Prop :=
  s.pc.toNat + bytes.length ≤ 256 ∧ ∀ k : Nat, ∀ h : k < bytes.length, s.readByte (s.pc.toNat + k) = bytes[k]

/-- An operand byte is the legal register index `i` (spec/30_encoding.md R54). -/
def Names (b : Byte) (i : RegIndex) : Prop := b.toNat = i.val

/-! ### The shape the ALU rules share -/

/-- What the rules R121, R122, R123 and R125 of spec/44_alu.md say of an ALU instruction with no check of its own: `op` is its
opcode byte, `mk` its constructor, and `result u v r` says that `r` is the result for the sources `u` and `v`. -/
def AluRule (op : Byte) (mk : Byte → Byte → Instr) (result : Byte → Byte → Byte → Prop) : Prop :=
  ∀ (s : State) (a b : Byte),
    (∀ i j : RegIndex, Ready s 2 → Names a i → Names b j → ∃ t, exec (mk a b) s = .next t ∧
      result (s.reg i) (s.reg j) (t.reg i) ∧ SameRegsBut s t i ∧ SameMem s t ∧ t.sp = s.sp ∧ t.out = s.out ∧
      t.fault = s.fault ∧ AdvancedBy s t 3) ∧
    (Ready s 2 → 7 < a.toNat → Raises s (.registerIndexOutOfRange .operandA a) (exec (mk a b) s)) ∧
    (Ready s 2 → a.toNat ≤ 7 → 7 < b.toNat → Raises s (.registerIndexOutOfRange .operandB b) (exec (mk a b) s)) ∧
    (s.run = .running → OpcodeAt s op → 254 ≤ s.pc.toNat → Raises s (.memoryOutOfRange .operandFetch 256) (step s)) ∧
    (s.run = .running → CodeAt s [op, a, b] → step s = exec (mk a b) s)

/-! ### The order of checks, written from spec/40_cycle.md R79 beside the machine -/

/-- The fault the instruction at `pc` raises: the first failing check in the order of R79, by opcode byte; none where every
check holds. The machine does not use this definition. -/
def firstFailingCheck (s : State) : Option Cause :=
  let op := s.readByte s.pc.toNat
  let a := s.readByte (s.pc.toNat + 1)
  let b := s.readByte (s.pc.toNat + 2)
  if op ∉ [0x01#8, 0x11#8, 0x45#8, 0x46#8, 0x47#8, 0x50#8, 0x82#8, 0xA0#8, 0xA1#8, 0xA2#8, 0xA3#8, 0xA8#8] then
    some .unsupportedInstruction
  else if 255 < s.pc.toNat + operandCount op then some (.memoryOutOfRange .operandFetch 256)
  else if op ∉ [0x01#8, 0x11#8] ∧ 7 < a.toNat then some (.registerIndexOutOfRange .operandA a)
  else if op ∈ [0xA0#8, 0xA1#8, 0xA2#8, 0xA3#8, 0xA8#8] ∧ 7 < b.toNat then some (.registerIndexOutOfRange .operandB b)
  else if op = 0xA3#8 ∧ s.reg (Fin.ofNat 8 b.toNat) = 0#8 then
    some (.divideByZero (Fin.ofNat 8 a.toNat) (Fin.ofNat 8 b.toNat))
  else if op ∈ [0x45#8, 0x50#8] ∧ s.sp.toNat = 255 then some (.memoryOutOfRange .stackPush 256)
  else if op = 0x50#8 ∧ s.pc.toNat = 254 then some (.memoryOutOfRange .returnAddress 256)
  else if op ∈ [0x46#8, 0x11#8] ∧ s.sp.toNat = 0 then some (.memoryOutOfRange .stackPop (-1))
  else none

end Sys2Proof.Machine
end

