-- ==== Sys2Proof/Certificates/Slice0/Obligations.lean ====
section
/-! DEFINITION. The statements for the provers. The words they use (SameRegs, Ready, AdvancedBy, Raises, CodeAt, Names, Inv)
are defined in Sys2Proof/Safety.lean. -/

open Sys2Proof Sys2Proof.Machine

/-! ### Encoding -/

/-- O1. The bytes of spec/30_encoding.md R62, written out, are the instructions they stand for. -/
def Obligations.WrittenOutWordsDecode : Prop :=
  decode [0b00000001#8] = .ok (.hlt, []) ∧
  decode [0b01010000#8, 0b00000001#8] = .ok (.call 1#8, []) ∧
  decode [0b10000010#8, 0b00000000#8, 0b00000101#8] = .ok (.ldi 0#8 5#8, []) ∧
  decode [0b10100001#8, 0b00000010#8, 0b00000111#8, 0b00000001#8] = .ok (.sub 2#8 7#8, [0b00000001#8]) ∧
  decode [0b11000000#8, 0b00000000#8] = .error (.unsupported 0b11000000#8)

/-- O2. Decode and encode agree, both ways: bytes decode to `i` with `rest` left over exactly when they are the encoding of `i`
followed by `rest` (R50, R55, R56). It holds of every instruction, an illegal register operand included. -/
def Obligations.DecodeAndEncodeAgree : Prop :=
  ∀ (bytes rest : List Byte) (i : Instr), decode bytes = .ok (i, rest) ↔ bytes = encode i ++ rest

/-- O3. The opcode alone tells the length and who sets `pc` (R50, R52, R53): a wired instruction has `op[7:6] + 1` bytes, and
bit 4 of its opcode is 1 exactly for CALL and RET. -/
def Obligations.OpcodeTellsLengthAndPcFlag : Prop :=
  ∀ i : Instr, i.wired = true →
    (encode i).length = i.opcode.toNat / 64 + 1 ∧
    (i.opcode.toNat / 16 % 2 = 1 ↔ i = .ret ∨ ∃ a, i = .call a)

/-! ### The cycle -/

/-- O4. A step runs the decoded instruction (spec/40_cycle.md R72 to R75): when the bytes at `pc` decode to `i`, the step of a
Running engine is `exec i`, with nothing around it. -/
def Obligations.StepRunsDecodedInstruction : Prop :=
  ∀ (s : State) (i : Instr) (rest : List Byte), s.run = .running → decode (codeWindow s) = .ok (i, rest) → step s = exec i s

/-- O5. Operand fetch (spec/40_cycle.md R74): a wired opcode whose operands lie inside memory runs with exactly the bytes that
follow it; one with an operand past address 255 raises `MemoryOutOfRange(OperandFetch, 256)` and does not execute. -/
def Obligations.OperandFetchReadsWhatIsThereOrFaults : Prop :=
  ∀ s : State, s.run = .running → s.pc.toNat ≤ 255 → isWired (s.readByte s.pc.toNat) = true →
    (s.pc.toNat + operandCount (s.readByte s.pc.toNat) ≤ 255 →
      ∃ i : Instr, i.wired = true ∧ (encode i).length = operandCount (s.readByte s.pc.toNat) + 1 ∧
        CodeAt s (encode i) ∧ step s = exec i s) ∧
    (255 < s.pc.toNat + operandCount (s.readByte s.pc.toNat) →
      Raises s (.memoryOutOfRange .operandFetch 256) (step s))

/-- O6. Every byte outside the twelve raises `UnsupportedInstruction` (spec/60_exceptions.md R141), at every address, before any
operand is fetched; no wired instruction raises it. -/
def Obligations.UnwiredByteRaisesUnsupportedInstruction : Prop :=
  (∀ s : State, s.run = .running → s.pc.toNat ≤ 255 →
    s.readByte s.pc.toNat ∉
      [0x01#8, 0x11#8, 0x45#8, 0x46#8, 0x47#8, 0x50#8, 0x82#8, 0xA0#8, 0xA1#8, 0xA2#8, 0xA3#8, 0xA8#8] →
    Raises s .unsupportedInstruction (step s)) ∧
  (∀ (s t : State) (i : Instr) (r : FaultRecord), i.wired = true → s.fault = none → exec i s = .next t →
    t.fault = some r → r.cause ≠ .unsupportedInstruction)

/-- O7. The seven reserved names execute as `UnsupportedInstruction` (spec/30_encoding.md R59). Their opcode values are PRESUMED
(log entry 5); what they do does not rest on them. -/
def Obligations.ReservedNamesRaiseUnsupportedInstruction : Prop :=
  ∀ (s : State) (i : Instr), s.pc.toNat ≤ 255 →
    i = .cmp ∨ i = .dec ∨ i = .inc ∨ i = .mod ∨ i = .not ∨ i = .or ∨ i = .xor →
    Raises s .unsupportedInstruction (exec i s)

/-- O8. A terminal state performs no cycle (spec/40_cycle.md R71): any number of step requests changes nothing. -/
def Obligations.TerminalStatesAreAbsorbing : Prop :=
  ∀ (s : State) (k : Nat), s.run ≠ .running → runFor k s = .next s

/-- O9. Progress (spec/70_reset_and_hazards.md R177): a Running engine always has a next cycle. The spec marks R177 as
derived from R80. `pc` at most 255 is the invariant of spec/10_state.md R15 (O11, O12). -/
def Obligations.RunningEngineAlwaysHasNextCycle : Prop :=
  ∀ s : State, s.run = .running → s.pc.toNat ≤ 255 → ∃ t, step s = .next t

/-- O10. No run is ever stuck: from every state that meets the invariant, every number of steps answers a next state. -/
def Obligations.RunsNeverGetStuck : Prop :=
  ∀ (s : State) (k : Nat), s.Inv → ∃ t, runFor k s = .next t ∧ t.Inv

/-- O11. Every step keeps the invariant: memory canonical, `pc` at most 256, 256 exactly at the end of memory (R15, R173), a
fault record exactly when Faulted, naming the instruction `pc` is left at (R19, R145). -/
def Obligations.StepKeepsInvariant : Prop :=
  ∀ s t : State, s.Inv → step s = .next t → t.Inv

/-- O12. The invariant holds at reset. -/
def Obligations.ResetMeetsInvariant : Prop := State.reset.Inv

/-- O13. The state after reset (spec/10_state.md R24). The register values and the blank memory are the defaults of the two open
parameters `REG_RESET` and `IMAGE` (log entries 1 and 2), the rest the spec gives. -/
def Obligations.ResetStateIsAsTheTableSays : Prop :=
  State.reset.pc.toNat = 0 ∧ State.reset.sp.toNat = 244 ∧ State.reset.run = .running ∧ State.reset.fault = none ∧
  State.reset.out = [] ∧ (∀ i : RegIndex, State.reset.reg i = 0#8) ∧ ∀ a : Nat, State.reset.readByte a = 0#8

/-- O14. Reset with an image (spec/70_reset_and_hazards.md R170, R171), from whatever state: memory equals the image, `pc = 0`,
`sp = 0xF4`, Running, no record, no output, and the invariant holds; the registers are the launch parameter of
spec/10_state.md R25, by default zero (log entry 1). -/
def Obligations.LaunchLoadsTheImage : Prop :=
  ∀ (image : Vector Byte 256) (regs : Vector Byte 8) (s : State),
    (∀ (a : Nat) (h : a < 256), (State.launch regs image).readByte a = image[a]) ∧
    (∀ i : RegIndex, (State.launch regs image).reg i = regs[i.val]) ∧
    (State.launch regs image).Inv ∧ (State.launch regs image).run = .running ∧
    (State.launch regs image).pc.toNat = 0 ∧ (State.launch regs image).sp.toNat = 244 ∧
    (State.launch regs image).fault = none ∧ (State.launch regs image).out = [] ∧
    hostReset image s = State.launch (Vector.replicate 8 0#8) image

/-! ### Faults -/

/-- O15. Fault entry is precise (spec/60_exceptions.md R146): a cycle that leaves the engine Faulted writes the record with
`pc` and `M[pc]` and changes nothing else, and no instruction starts after it. -/
def Obligations.FaultEntryIsPrecise : Prop :=
  ∀ (s t : State) (k : Nat), s.run = .running → step s = .next t → t.run = .faulted →
    (∃ c, Raises s c (step s)) ∧ runFor k t = .next t

/-- O16. The order of checks (spec/40_cycle.md R79, R75, R80): a cycle raises the fault of the first failing check, and completes
without a fault where every check holds. -/
def Obligations.FirstFailingCheckRaisesItsFault : Prop :=
  ∀ s : State, s.run = .running → s.pc.toNat ≤ 255 →
    (∀ c, firstFailingCheck s = some c → Raises s c (step s)) ∧
    (firstFailingCheck s = none → ∃ t, step s = .next t ∧ t.run ≠ .faulted ∧ t.fault = s.fault)

/-- O17. `MemoryOutOfRange` comes from the four sites and no other (spec/60_exceptions.md R142), each with its one value, its
condition and its instructions. -/
def Obligations.MemoryOutOfRangeComesFromFourSites : Prop :=
  ∀ (s t : State) (r : FaultRecord) (site : Site) (v : Int), s.run = .running → step s = .next t → t.run = .faulted →
    t.fault = some r → r.cause = .memoryOutOfRange site v →
    match site with
    | .operandFetch => v = 256 ∧ isWired r.opcode = true ∧ 1 ≤ operandCount r.opcode ∧
        255 < s.pc.toNat + operandCount r.opcode
    | .stackPush => v = 256 ∧ s.sp.toNat = 255 ∧ (r.opcode = 0x45#8 ∨ r.opcode = 0x50#8)
    | .returnAddress => v = 256 ∧ s.pc.toNat = 254 ∧ r.opcode = 0x50#8
    | .stackPop => v = -1 ∧ s.sp.toNat = 0 ∧ (r.opcode = 0x46#8 ∨ r.opcode = 0x11#8)

/-! ### LDI, PRN, HLT -/

/-- O18. LDI (spec/41_data_output_halt.md R90). -/
def Obligations.LdiLoadsItsImmediate : Prop :=
  ∀ (s : State) (a imm : Byte),
    (∀ i : RegIndex, Ready s 2 → Names a i → ∃ t, exec (.ldi a imm) s = .next t ∧
      t.reg i = imm ∧ SameRegsBut s t i ∧ SameMem s t ∧ t.sp = s.sp ∧ t.out = s.out ∧ t.fault = s.fault ∧ AdvancedBy s t 3) ∧
    (Ready s 2 → 7 < a.toNat → Raises s (.registerIndexOutOfRange .operandA a) (exec (.ldi a imm) s)) ∧
    (s.run = .running → OpcodeAt s 0x82#8 → 254 ≤ s.pc.toNat → Raises s (.memoryOutOfRange .operandFetch 256) (step s)) ∧
    (s.run = .running → CodeAt s [0x82#8, a, imm] → step s = exec (.ldi a imm) s)

/-- O19. PRN (spec/41_data_output_halt.md R91). -/
def Obligations.PrnEmitsItsRegister : Prop :=
  ∀ (s : State) (a : Byte),
    (∀ i : RegIndex, Ready s 1 → Names a i → ∃ t, exec (.prn a) s = .next t ∧
      t.out = s.out ++ [s.reg i] ∧ SameRegs s t ∧ SameMem s t ∧ t.sp = s.sp ∧ t.fault = s.fault ∧ AdvancedBy s t 2) ∧
    (Ready s 1 → 7 < a.toNat → Raises s (.registerIndexOutOfRange .operandA a) (exec (.prn a) s)) ∧
    (s.run = .running → OpcodeAt s 0x47#8 → s.pc.toNat = 255 → Raises s (.memoryOutOfRange .operandFetch 256) (step s)) ∧
    (s.run = .running → CodeAt s [0x47#8, a] → step s = exec (.prn a) s)

/-- O20. HLT (spec/41_data_output_halt.md R92): it halts at its own address, also at 255, and no cycle follows. -/
def Obligations.HltHaltsInPlace : Prop :=
  ∀ s : State, Ready s 0 →
    (∃ t, exec .hlt s = .next t ∧ t.run = .halted ∧ t.pc = s.pc ∧ SameRegs s t ∧ SameMem s t ∧ t.sp = s.sp ∧
      t.out = s.out ∧ t.fault = s.fault ∧ step t = .next t) ∧
    (CodeAt s [0x01#8] → step s = exec .hlt s)

/-! ### PUSH, POP -/

/-- O21. PUSH (spec/42_stack.md R101): the address stored to is `sp + 1`, which becomes the new `sp`. -/
def Obligations.PushIncrementsThenWrites : Prop :=
  ∀ (s : State) (a : Byte),
    (∀ i : RegIndex, Ready s 1 → Names a i → s.sp.toNat ≤ 254 → ∃ t, exec (.push a) s = .next t ∧
      t.sp.toNat = s.sp.toNat + 1 ∧ t.readByte (s.sp.toNat + 1) = s.reg i ∧ SameMemBut s t (s.sp.toNat + 1) ∧
      SameRegs s t ∧ t.out = s.out ∧ t.fault = s.fault ∧ AdvancedBy s t 2) ∧
    (Ready s 1 → 7 < a.toNat → Raises s (.registerIndexOutOfRange .operandA a) (exec (.push a) s)) ∧
    (Ready s 1 → a.toNat ≤ 7 → s.sp.toNat = 255 → Raises s (.memoryOutOfRange .stackPush 256) (exec (.push a) s)) ∧
    (s.run = .running → OpcodeAt s 0x45#8 → s.pc.toNat = 255 → Raises s (.memoryOutOfRange .operandFetch 256) (step s)) ∧
    (s.run = .running → CodeAt s [0x45#8, a] → step s = exec (.push a) s)

/-- O22. POP (spec/42_stack.md R102). -/
def Obligations.PopReadsThenDecrements : Prop :=
  ∀ (s : State) (a : Byte),
    (∀ i : RegIndex, Ready s 1 → Names a i → 1 ≤ s.sp.toNat → ∃ t, exec (.pop a) s = .next t ∧
      t.reg i = s.readByte s.sp.toNat ∧ t.sp.toNat + 1 = s.sp.toNat ∧ SameRegsBut s t i ∧ SameMem s t ∧
      t.out = s.out ∧ t.fault = s.fault ∧ AdvancedBy s t 2) ∧
    (Ready s 1 → 7 < a.toNat → Raises s (.registerIndexOutOfRange .operandA a) (exec (.pop a) s)) ∧
    (Ready s 1 → a.toNat ≤ 7 → s.sp.toNat = 0 → Raises s (.memoryOutOfRange .stackPop (-1)) (exec (.pop a) s)) ∧
    (s.run = .running → OpcodeAt s 0x46#8 → s.pc.toNat = 255 → Raises s (.memoryOutOfRange .operandFetch 256) (step s)) ∧
    (s.run = .running → CodeAt s [0x46#8, a] → step s = exec (.pop a) s)

/-- O23. PUSH then POP (spec/42_stack.md R103): `PUSH a` followed at once by `POP c`, where the push did not overwrite the POP's
own bytes, copies `x[a]` to `x[c]` and leaves `sp` and everything else but `pc` and the pushed cell as before. The spec marks it as derived from R101 and R102. -/
def Obligations.PushThenPopRestores : Prop :=
  ∀ (s : State) (a c : Byte) (i j : RegIndex), s.run = .running → CodeAt s [0x45#8, a, 0x46#8, c] → Names a i → Names c j →
    s.sp.toNat ≤ 254 → s.sp.toNat + 1 ≠ s.pc.toNat + 2 → s.sp.toNat + 1 ≠ s.pc.toNat + 3 →
    ∃ t, runFor 2 s = .next t ∧
      t.reg j = s.reg i ∧ SameRegsBut s t j ∧ t.sp = s.sp ∧ t.readByte (s.sp.toNat + 1) = s.reg i ∧
      SameMemBut s t (s.sp.toNat + 1) ∧ t.out = s.out ∧ t.fault = s.fault ∧ AdvancedBy s t 4

/-! ### CALL, RET -/

/-- O24. CALL (spec/43_control_transfer.md R110): the return address `pc + 2` is stored at `sp + 1`. The stack check comes before
the return address check. -/
def Obligations.CallPushesReturnAddressAndJumps : Prop :=
  ∀ (s : State) (a : Byte),
    (∀ i : RegIndex, Ready s 1 → Names a i → s.sp.toNat ≤ 254 → s.pc.toNat ≤ 253 → ∃ t, exec (.call a) s = .next t ∧
      t.pc.toNat = (s.reg i).toNat ∧ t.sp.toNat = s.sp.toNat + 1 ∧ (t.readByte (s.sp.toNat + 1)).toNat = s.pc.toNat + 2 ∧
      SameMemBut s t (s.sp.toNat + 1) ∧ SameRegs s t ∧ t.out = s.out ∧ t.fault = s.fault ∧ t.run = .running) ∧
    (Ready s 1 → 7 < a.toNat → Raises s (.registerIndexOutOfRange .operandA a) (exec (.call a) s)) ∧
    (Ready s 1 → a.toNat ≤ 7 → s.sp.toNat = 255 → Raises s (.memoryOutOfRange .stackPush 256) (exec (.call a) s)) ∧
    (Ready s 1 → a.toNat ≤ 7 → s.sp.toNat ≤ 254 → s.pc.toNat = 254 →
      Raises s (.memoryOutOfRange .returnAddress 256) (exec (.call a) s)) ∧
    (s.run = .running → OpcodeAt s 0x50#8 → s.pc.toNat = 255 → Raises s (.memoryOutOfRange .operandFetch 256) (step s)) ∧
    (s.run = .running → CodeAt s [0x50#8, a] → step s = exec (.call a) s)

/-- O25. RET (spec/43_control_transfer.md R111): it jumps to whatever byte is at `M[sp]`, also from address 255. -/
def Obligations.RetPopsAndJumps : Prop :=
  ∀ s : State, Ready s 0 →
    (1 ≤ s.sp.toNat → ∃ t, exec .ret s = .next t ∧ t.pc.toNat = (s.readByte s.sp.toNat).toNat ∧ t.sp.toNat + 1 = s.sp.toNat ∧
      SameRegs s t ∧ SameMem s t ∧ t.out = s.out ∧ t.fault = s.fault ∧ t.run = .running) ∧
    (s.sp.toNat = 0 → Raises s (.memoryOutOfRange .stackPop (-1)) (exec .ret s)) ∧
    (CodeAt s [0x11#8] → step s = exec .ret s)

/-- O26. CALL and RET round trip (spec/43_control_transfer.md R112), where the byte at the target is RET after the CALL's stack
write. The spec marks it as derived from R110 and R111. -/
def Obligations.CallThenRetRoundTrip : Prop :=
  ∀ (s : State) (a : Byte) (i : RegIndex), s.run = .running → CodeAt s [0x50#8, a] → Names a i → s.pc.toNat ≤ 253 →
    s.sp.toNat ≤ 254 →
    ∃ t, step s = .next t ∧ (t.readByte (s.reg i).toNat = 0x11#8 →
      ∃ u, step t = .next u ∧ u.pc.toNat = s.pc.toNat + 2 ∧ u.sp = s.sp ∧
        (u.readByte (s.sp.toNat + 1)).toNat = s.pc.toNat + 2 ∧ SameMemBut s u (s.sp.toNat + 1) ∧ SameRegs s u ∧
        u.out = s.out ∧ u.fault = s.fault ∧ u.run = .running)

/-! ### The ALU -/

/-- O27. ADD (spec/44_alu.md R121). -/
def Obligations.AddIsSumModulo256 : Prop :=
  AluRule 0xA0#8 .add fun u v r => r.toNat = (u.toNat + v.toNat) % 256

/-- O28. SUB (spec/44_alu.md R122): the non-negative remainder of the difference. -/
def Obligations.SubIsDifferenceModulo256 : Prop :=
  AluRule 0xA1#8 .sub fun u v r => (r.toNat : Int) = ((u.toNat : Int) - (v.toNat : Int)) % 256

/-- O29. MUL (spec/44_alu.md R123): the low eight bits of the product. -/
def Obligations.MulIsProductModulo256 : Prop :=
  AluRule 0xA2#8 .mul fun u v r => r.toNat = (u.toNat * v.toNat) % 256

/-- O30. AND (spec/44_alu.md R125): bit `k` of the result is 1 exactly when bit `k` of both sources is. -/
def Obligations.AndIsBitwise : Prop :=
  AluRule 0xA8#8 .and fun u v r => ∀ k : Nat, k < 8 → (r.getLsbD k = true ↔ u.getLsbD k = true ∧ v.getLsbD k = true)

/-- O31. DIV (spec/44_alu.md R124): the unsigned quotient rounded toward zero, `DivideByZero(a, b)` on a zero divisor, the index
checks first. -/
def Obligations.DivIsUnsignedQuotientOrFault : Prop :=
  ∀ (s : State) (a b : Byte),
    (∀ i j : RegIndex, Ready s 2 → Names a i → Names b j → s.reg j ≠ 0#8 → ∃ t, exec (.div a b) s = .next t ∧
      (t.reg i).toNat * (s.reg j).toNat ≤ (s.reg i).toNat ∧
      (s.reg i).toNat < ((t.reg i).toNat + 1) * (s.reg j).toNat ∧ SameRegsBut s t i ∧ SameMem s t ∧ t.sp = s.sp ∧
      t.out = s.out ∧ t.fault = s.fault ∧ AdvancedBy s t 3) ∧
    (∀ i j : RegIndex, Ready s 2 → Names a i → Names b j → s.reg j = 0#8 → Raises s (.divideByZero i j) (exec (.div a b) s)) ∧
    (Ready s 2 → 7 < a.toNat → Raises s (.registerIndexOutOfRange .operandA a) (exec (.div a b) s)) ∧
    (Ready s 2 → a.toNat ≤ 7 → 7 < b.toNat → Raises s (.registerIndexOutOfRange .operandB b) (exec (.div a b) s)) ∧
    (s.run = .running → OpcodeAt s 0xA3#8 → 254 ≤ s.pc.toNat → Raises s (.memoryOutOfRange .operandFetch 256) (step s)) ∧
    (s.run = .running → CodeAt s [0xA3#8, a, b] → step s = exec (.div a b) s)

/-- O32. The same register as both operands (spec/44_alu.md R127): doubled, zero, squared, one or a fault, unchanged. The
spec marks it as derived from R120 to R125. -/
def Obligations.SameRegisterAsBothOperands : Prop :=
  ∀ (s : State) (a : Byte) (i : RegIndex), Ready s 2 → Names a i →
    (∃ t, exec (.add a a) s = .next t ∧ (t.reg i).toNat = (2 * (s.reg i).toNat) % 256) ∧
    (∃ t, exec (.sub a a) s = .next t ∧ t.reg i = 0#8) ∧
    (∃ t, exec (.mul a a) s = .next t ∧ (t.reg i).toNat = ((s.reg i).toNat ^ 2) % 256) ∧
    (s.reg i ≠ 0#8 → ∃ t, exec (.div a a) s = .next t ∧ t.reg i = 1#8) ∧
    (s.reg i = 0#8 → Raises s (.divideByZero i i) (exec (.div a a) s)) ∧
    (∃ t, exec (.and a a) s = .next t ∧ t.reg i = s.reg i)

/-- O33. ADD, SUB and MUL give the same bit pattern whether the bytes are read as unsigned or as two's complement
(spec/44_alu.md R126). -/
def Obligations.WrappingResultsAreSignless : Prop :=
  ∀ u v : Byte,
    aluAdd u v = BitVec.ofInt 8 (u.toInt + v.toInt) ∧
    aluSub u v = BitVec.ofInt 8 (u.toInt - v.toInt) ∧
    aluMul u v = BitVec.ofInt 8 (u.toInt * v.toInt)

/-! ### Rules over the whole machine -/

/-- O34. The output is append-only (spec/10_state.md R20): a step leaves it alone or, being a PRN, appends the one byte of the
register it names; so a run of `k` steps appends at most `k` bytes. -/
def Obligations.OnlyPrnAppendsToOutput : Prop :=
  (∀ s t : State, step s = .next t → t.out = s.out ∨
    (s.run = .running ∧ OpcodeAt s 0x47#8 ∧ ∃ i, Names (s.readByte (s.pc.toNat + 1)) i ∧ t.out = s.out ++ [s.reg i])) ∧
  (∀ (k : Nat) (s t : State), runFor k s = .next t → ∃ l, t.out = s.out ++ l ∧ l.length ≤ k)

/-- O35. Nothing in the block reads the output (spec/10_state.md R20): a step does the same whatever was emitted before. -/
def Obligations.NothingReadsTheOutput : Prop :=
  ∀ (s t : State) (before : List Byte), step s = .next t →
    step { s with out := before ++ s.out } = .next { t with out := before ++ t.out }

/-- O36. The only memory write of a cycle is PUSH's and CALL's, at `sp + 1` (spec/20_memory.md R46). -/
def Obligations.OnlyPushAndCallStore : Prop :=
  ∀ s t : State, step s = .next t → SameMem s t ∨
    (s.run = .running ∧ (OpcodeAt s 0x45#8 ∨ OpcodeAt s 0x50#8) ∧ s.sp.toNat ≤ 254 ∧ t.sp.toNat = s.sp.toNat + 1 ∧
      SameMemBut s t (s.sp.toNat + 1))

/-- O37. Only LDI, POP and the ALU write a register, the one operand A names (spec/10_state.md R13, table). -/
def Obligations.OnlyNamedRegisterIsWritten : Prop :=
  ∀ (s t : State) (j : RegIndex), step s = .next t → t.reg j ≠ s.reg j →
    s.run = .running ∧ Names (s.readByte (s.pc.toNat + 1)) j ∧
    s.readByte s.pc.toNat ∈ [0x82#8, 0x46#8, 0xA0#8, 0xA1#8, 0xA2#8, 0xA3#8, 0xA8#8]

/-- O38. Only PUSH, POP, CALL and RET move the stack pointer, by one and inside 0 to 255 (spec/10_state.md R16, R17). -/
def Obligations.StackPointerMovesByOne : Prop :=
  ∀ s t : State, step s = .next t → t.sp = s.sp ∨
    (s.run = .running ∧ (OpcodeAt s 0x45#8 ∨ OpcodeAt s 0x50#8) ∧ t.sp.toNat = s.sp.toNat + 1) ∨
    (s.run = .running ∧ (OpcodeAt s 0x46#8 ∨ OpcodeAt s 0x11#8) ∧ t.sp.toNat + 1 = s.sp.toNat)

/-- O39. The PC update (spec/40_cycle.md R76): a faulting cycle and HLT leave `pc`; CALL and RET set it, and nothing is added;
every other instruction adds its length. That the opcode is the byte fetched at the start of the cycle the spec marks as derived
from R80. -/
def Obligations.PcIsUpdatedByItsOpcode : Prop :=
  ∀ s t : State, s.run = .running → s.pc.toNat ≤ 255 → step s = .next t →
    (t.run = .faulted → t.pc = s.pc) ∧
    (t.run ≠ .faulted → OpcodeAt s 0x01#8 → t.pc = s.pc) ∧
    (t.run ≠ .faulted → OpcodeAt s 0x50#8 →
      ∃ i, Names (s.readByte (s.pc.toNat + 1)) i ∧ t.pc.toNat = (s.reg i).toNat) ∧
    (t.run ≠ .faulted → OpcodeAt s 0x11#8 → t.pc.toNat = (s.readByte s.sp.toNat).toNat) ∧
    (t.run ≠ .faulted → ¬ OpcodeAt s 0x01#8 → ¬ OpcodeAt s 0x50#8 → ¬ OpcodeAt s 0x11#8 →
      t.pc.toNat = s.pc.toNat + operandCount (s.readByte s.pc.toNat) + 1)

/-- O40. End of memory (spec/40_cycle.md R77): a cycle ends the run there exactly when it leaves `pc` at 256, and that is
only after a two-byte instruction at 254 or a three-byte instruction at 253, with `P = 0`. -/
def Obligations.EndOfMemoryIsTheSentinel : Prop :=
  ∀ s t : State, s.run = .running → s.pc.toNat ≤ 255 → step s = .next t →
    (t.run = .endOfMemory ↔ t.pc.toNat = 256) ∧
    (t.run = .endOfMemory → t.fault = s.fault ∧ setsPc (s.readByte s.pc.toNat) = false ∧
      (s.pc.toNat = 254 ∧ operandCount (s.readByte s.pc.toNat) = 1 ∨
       s.pc.toNat = 253 ∧ operandCount (s.readByte s.pc.toNat) = 2))

/-- O41. How a run state is entered (spec/10_state.md R18): Halted exactly by a HLT, Faulted exactly with a fresh record,
EndOfMemory exactly at the sentinel; every other cycle leaves the engine Running. -/
def Obligations.TerminalRunStatesAreEnteredAsListed : Prop :=
  ∀ s t : State, s.run = .running → s.pc.toNat ≤ 255 → s.fault = none → step s = .next t →
    (t.run = .halted ↔ OpcodeAt s 0x01#8) ∧ (t.run = .faulted ↔ t.fault.isSome = true) ∧
    (t.run = .endOfMemory ↔ t.pc.toNat = 256)

/-- O42. What is fetched is a function of `pc` and the bytes there now (spec/20_memory.md R43; spec/10_state.md R23): no prefetch
and no hidden state, so a store is seen by every later fetch. -/
def Obligations.FetchSeesOnlyTheBytesAtPc : Prop :=
  ∀ s t : State, s.pc = t.pc → (∀ k : Nat, k < 3 → s.readByte (s.pc.toNat + k) = t.readByte (s.pc.toNat + k)) →
    fetch s = fetch t

/-- O43. The bounds check never wraps and never clamps (spec/20_memory.md R34): it gives the address that was asked for, or
names the value that is none. -/
def Obligations.BoundsCheckNeverWraps : Prop :=
  ∀ (site : Site) (v : Int),
    (∀ a : Addr, checkAddr site v = .ok a ↔ (a.toNat : Int) = v) ∧
    (v < 0 ∨ 255 < v ↔ checkAddr site v = .error (.memoryOutOfRange site v))

/-- O44. Equal memories are equal data: two canonical memories that read the same are the same list. -/
def Obligations.CanonicalMemoriesAreEqualData : Prop :=
  ∀ m m' : Memory, m.wf = true → m'.wf = true → (∀ a : Nat, m.byteAt a = m'.byteAt a) → m = m'

/-- O45. Which writes of the host between two steps keep the invariant: all of them but a write of `run` to EndOfMemory or
Faulted, which leaves a state no cycle makes; and only a write of `run` stops the engine. That the host may write all seven
items, and when `run` and the record take a write, is the model's reading of R6 and D18, log entry 9. -/
def Obligations.HostWriteKeepsInvariant : Prop :=
  ∀ (w : HostWrite) (s : State), s.Inv → s.run = .running →
    ((hostWrite w s).Inv ↔ ∀ r, w = .run r → r = .running ∨ r = .halted) ∧
    ((∀ r, w ≠ .run r) → (hostWrite w s).run = .running)

/-- O46. A program that keeps to spec/70_reset_and_hazards.md R175 meets no fault: every well-formed instruction that lies inside
memory completes, given room on the stack, something below it, a non-zero divisor, and no CALL at 254. -/
def Obligations.WellFormedInstructionsComplete : Prop :=
  ∀ (i : Instr) (s : State), i.wellFormed = true → s.run = .running → s.pc.toNat + (encode i).length ≤ 256 →
    (∀ a, i = .push a ∨ i = .call a → s.sp.toNat ≤ 254) →
    (∀ a, i = .pop a ∨ i = .ret → 1 ≤ s.sp.toNat) →
    (∀ a, i = .call a → s.pc.toNat ≤ 253) →
    (∀ a b j, i = .div a b → Names b j → s.reg j ≠ 0#8) →
    ∃ t, exec i s = .next t ∧ t.run ≠ .faulted ∧ t.fault = s.fault

/-- O47. Write access to every piece of state (spec/00_scope.md R6): from a state, host writes can make exactly the states whose
memory is canonical, whose `pc` is 0 to 255 or the one there was, whose run state is the one there was unless that was Running
(decision D18), and whose record is the one there was unless there was none and the engine is made Faulted
(spec/10_state.md R19). When `run` and the record take a write, and that any record is taken, is the model's reading, log entries 9
and 13. -/
def Obligations.HostWritesMakeExactlyTheseStates : Prop :=
  ∀ s t : State, s.mem.wf = true →
    ((∃ ws, hostWrites ws s = t) ↔
      t.mem.wf = true ∧ (t.pc.toNat ≤ 255 ∨ t.pc = s.pc) ∧ (s.run = .running ∨ t.run = s.run) ∧
      (t.fault = s.fault ∨ (s.fault = none ∧ t.run = .faulted)))

/-- O48. A host write puts the value into the item it names and changes nothing else (spec/00_scope.md R6; spec/20_memory.md R45);
one of `run` to a terminal state, and one of the record where none can be put, changes nothing (log entries 9 and 13). -/
def Obligations.HostWriteChangesOnlyItsItem : Prop :=
  ∀ s : State,
    (∀ (i : RegIndex) (v : Byte), (hostWrite (.reg i v) s).reg i = v ∧ SameRegsBut s (hostWrite (.reg i v) s) i ∧
      hostWrite (.reg i v) s = { s with x := (hostWrite (.reg i v) s).x }) ∧
    (∀ (a : Addr) (v : Byte), (hostWrite (.mem a v) s).readByte a.toNat = v ∧ SameMemBut s (hostWrite (.mem a v) s) a.toNat ∧
      hostWrite (.mem a v) s = { s with mem := (hostWrite (.mem a v) s).mem }) ∧
    (∀ a : Addr, (hostWrite (.pc a) s).pc.toNat = a.toNat ∧
      hostWrite (.pc a) s = { s with pc := (hostWrite (.pc a) s).pc }) ∧
    (∀ v : Byte, hostWrite (.sp v) s = { s with sp := v }) ∧
    (∀ r : RunState, (s.run = .running → hostWrite (.run r) s = { s with run := r }) ∧
      (s.run ≠ .running → hostWrite (.run r) s = s)) ∧
    (∀ r : FaultRecord, (s.run = .faulted → s.fault = none → hostWrite (.fault r) s = { s with fault := some r }) ∧
      (s.run ≠ .faulted ∨ s.fault ≠ none → hostWrite (.fault r) s = s)) ∧
    (∀ bytes : List Byte, hostWrite (.out bytes) s = { s with out := bytes })

/-- O49. Reset is the only way out of a terminal run state (spec/70_reset_and_hazards.md R170; decision D18): whatever else the
host asks, steps and writes alike, the run state stays and so does the record once there is one (spec/10_state.md R19); reset
leaves the engine Running. -/
def Obligations.TerminalStatesAreLeftOnlyByReset : Prop :=
  (∀ (qs : List HostRequest) (s : State), s.run ≠ .running → (∀ image, .reset image ∉ qs) →
    ∃ t, serveAll qs s = .next t ∧ t.run = s.run ∧ (s.fault ≠ none → t.fault = s.fault)) ∧
  (∀ (image : Vector Byte 256) (s : State), ∃ t, serve (.reset image) s = .next t ∧ t.run = .running ∧ t.fault = none)

/-- O50. The invariant of `pc` (spec/10_state.md R15), Running implies `pc` at most 255, is kept by everything the host can ask,
and so no list of requests ever ends without a next state (log entry 4). -/
def Obligations.HostRequestsNeverGetStuck : Prop :=
  ∀ (qs : List HostRequest) (s : State), (s.run = .running → s.pc.toNat ≤ 255) →
    ∃ t, serveAll qs s = .next t ∧ (t.run = .running → t.pc.toNat ≤ 255)
end

