-- ==== Sys2Proof/Laws/Decode.lean ====
section
/-! SUPPORT. What the decoder can answer: the encoding it read, or why it refused. -/

namespace Sys2Proof

/-- One operand byte is read, or it is missing. -/
theorem decodeOne_cases {op : Byte} {mk : Byte → Instr} {rest : List Byte} :
    (∃ a tail, rest = a :: tail ∧ decodeOne op mk rest = .ok (mk a, tail)) ∨
    (rest = [] ∧ decodeOne op mk rest = .error (.operandMissing op)) := by
  cases rest with
  | nil => exact .inr ⟨rfl, rfl⟩
  | cons a tail => exact .inl ⟨a, tail, rfl, rfl⟩

/-- Two operand bytes are read, or one of them is missing. -/
theorem decodeTwo_cases {op : Byte} {mk : Byte → Byte → Instr} {rest : List Byte} :
    (∃ a b tail, rest = a :: b :: tail ∧ decodeTwo op mk rest = .ok (mk a b, tail)) ∨
    (rest.length < 2 ∧ decodeTwo op mk rest = .error (.operandMissing op)) := by
  match rest with
  | [] => exact .inr ⟨by simp, rfl⟩
  | [a] => exact .inr ⟨by simp, rfl⟩
  | a :: b :: tail => exact .inl ⟨a, b, tail, rfl, rfl⟩

/-- The decoder says once what it can do: it read an instruction and its bytes are its encoding; the opcode is wired and its
operands are not all there; or the opcode is of no row of the table. -/
theorem decode_cons_cases (op : Byte) (rest : List Byte) :
    (∃ i tail, i.opcode = op ∧ rest = i.operands ++ tail ∧ decode (op :: rest) = .ok (i, tail)) ∨
    (isWired op = true ∧ rest.length < operandCount op ∧ decode (op :: rest) = .error (.operandMissing op)) ∨
    (isWired op = false ∧ decode (op :: rest) = .error (.unsupported op)) := by
  have one : ∀ (c : Byte) (mk : Byte → Instr), op = c → isWired c = true → operandCount c = 1 →
      decode (op :: rest) = decodeOne op mk rest → (∀ a, (mk a).opcode = c ∧ (mk a).operands = [a]) →
      (∃ i tail, i.opcode = op ∧ rest = i.operands ++ tail ∧ decode (op :: rest) = .ok (i, tail)) ∨
      (isWired op = true ∧ rest.length < operandCount op ∧ decode (op :: rest) = .error (.operandMissing op)) := by
    intro c mk hc hw hn hd hm
    obtain ⟨a, tail, hr, he⟩ | ⟨hr, he⟩ := decodeOne_cases (op := op) (mk := mk) (rest := rest)
    · exact .inl ⟨mk a, tail, by rw [(hm a).1, hc], by rw [(hm a).2, hr]; rfl, by rw [hd, he]⟩
    · exact .inr ⟨by rw [hc, hw], by rw [hr, hc, hn]; decide, by rw [hd, he]⟩
  have two : ∀ (c : Byte) (mk : Byte → Byte → Instr), op = c → isWired c = true → operandCount c = 2 →
      decode (op :: rest) = decodeTwo op mk rest → (∀ a b, (mk a b).opcode = c ∧ (mk a b).operands = [a, b]) →
      (∃ i tail, i.opcode = op ∧ rest = i.operands ++ tail ∧ decode (op :: rest) = .ok (i, tail)) ∨
      (isWired op = true ∧ rest.length < operandCount op ∧ decode (op :: rest) = .error (.operandMissing op)) := by
    intro c mk hc hw hn hd hm
    obtain ⟨a, b, tail, hr, he⟩ | ⟨hr, he⟩ := decodeTwo_cases (op := op) (mk := mk) (rest := rest)
    · exact .inl ⟨mk a b, tail, by rw [(hm a b).1, hc], by rw [(hm a b).2, hr]; rfl, by rw [hd, he]⟩
    · exact .inr ⟨by rw [hc, hw], by rw [hc, hn]; exact hr, by rw [hd, he]⟩
  have zero : ∀ i : Instr, op = i.opcode → i.operands = [] → decode (op :: rest) = .ok (i, rest) →
      ∃ i tail, i.opcode = op ∧ rest = i.operands ++ tail ∧ decode (op :: rest) = .ok (i, tail) :=
    fun i ho hn hd => ⟨i, rest, ho.symm, by rw [hn]; rfl, hd⟩
  by_cases h1 : op = opHlt
  · subst h1; exact .inl (zero .hlt rfl rfl rfl)
  by_cases h2 : op = opRet
  · subst h2; exact .inl (zero .ret rfl rfl rfl)
  by_cases h3 : op = opPush
  · exact (one opPush .push h3 rfl rfl (by rw [h3]; rfl) fun _ => ⟨rfl, rfl⟩).imp_right .inl
  by_cases h4 : op = opPop
  · exact (one opPop .pop h4 rfl rfl (by rw [h4]; rfl) fun _ => ⟨rfl, rfl⟩).imp_right .inl
  by_cases h5 : op = opPrn
  · exact (one opPrn .prn h5 rfl rfl (by rw [h5]; rfl) fun _ => ⟨rfl, rfl⟩).imp_right .inl
  by_cases h6 : op = opCall
  · exact (one opCall .call h6 rfl rfl (by rw [h6]; rfl) fun _ => ⟨rfl, rfl⟩).imp_right .inl
  by_cases h7 : op = opLdi
  · exact (two opLdi .ldi h7 rfl rfl (by rw [h7]; rfl) fun _ _ => ⟨rfl, rfl⟩).imp_right .inl
  by_cases h8 : op = opAdd
  · exact (two opAdd .add h8 rfl rfl (by rw [h8]; rfl) fun _ _ => ⟨rfl, rfl⟩).imp_right .inl
  by_cases h9 : op = opSub
  · exact (two opSub .sub h9 rfl rfl (by rw [h9]; rfl) fun _ _ => ⟨rfl, rfl⟩).imp_right .inl
  by_cases h10 : op = opMul
  · exact (two opMul .mul h10 rfl rfl (by rw [h10]; rfl) fun _ _ => ⟨rfl, rfl⟩).imp_right .inl
  by_cases h11 : op = opDiv
  · exact (two opDiv .div h11 rfl rfl (by rw [h11]; rfl) fun _ _ => ⟨rfl, rfl⟩).imp_right .inl
  by_cases h12 : op = opAnd
  · exact (two opAnd .and h12 rfl rfl (by rw [h12]; rfl) fun _ _ => ⟨rfl, rfl⟩).imp_right .inl
  by_cases h13 : op = opCmp
  · subst h13; exact .inl (zero .cmp rfl rfl rfl)
  by_cases h14 : op = opDec
  · subst h14; exact .inl (zero .dec rfl rfl rfl)
  by_cases h15 : op = opInc
  · subst h15; exact .inl (zero .inc rfl rfl rfl)
  by_cases h16 : op = opMod
  · subst h16; exact .inl (zero .mod rfl rfl rfl)
  by_cases h17 : op = opNot
  · subst h17; exact .inl (zero .not rfl rfl rfl)
  by_cases h18 : op = opOr
  · subst h18; exact .inl (zero .or rfl rfl rfl)
  by_cases h19 : op = opXor
  · subst h19; exact .inl (zero .xor rfl rfl rfl)
  refine .inr (.inr ⟨?_, ?_⟩)
  · simp [isWired, wiredOpcodes, h1, h2, h3, h4, h5, h6, h7, h8, h9, h10, h11, h12]
  · simp only [decode, h1, h2, h3, h4, h5, h6, h7, h8, h9, h10, h11, h12, h13, h14, h15, h16, h17, h18, h19, if_false]

/-- A wired instruction has the operand bytes its opcode counts (R50, R52). -/
theorem Instr.operands_length {i : Instr} (h : i.wired = true) : i.operands.length = operandCount i.opcode := by
  cases i <;> first | exact absurd h (by decide) | simp [Instr.operands, Instr.opcode, operandCount]

/-- The length of an encoding (R50, R59). -/
theorem encode_length (i : Instr) : (encode i).length = if i.wired then operandCount i.opcode + 1 else 1 := by
  by_cases h : i.wired = true
  · rw [if_pos h, ← Instr.operands_length h]; rfl
  · rw [if_neg h]
    cases i <;> first | rfl | exact absurd rfl h

/-- An instruction is wired exactly when its opcode is (R56). -/
theorem Instr.wired_eq (i : Instr) : i.wired = isWired i.opcode := by
  cases i <;> rfl

end Sys2Proof
end

