-- ==== Sys2Proof/Laws/Memory.lean ====
section
/-! SUPPORT. The laws of the memory list: read after write, and that every operation keeps the canonical form. -/

namespace Sys2Proof.Machine

@[simp] theorem Memory.byteAt_nil (a : Nat) : Memory.byteAt [] a = Config.blankByte := rfl

theorem Memory.byteAt_cons (b : Nat) (w : Byte) (rest : Memory) (a : Nat) :
    Memory.byteAt ((b, w) :: rest) a = if a = b then w else Memory.byteAt rest a := rfl

theorem Memory.byteAt_erase (m : Memory) (a b : Nat) :
    (m.erase a).byteAt b = if b = a then Config.blankByte else m.byteAt b := by
  induction m with
  | nil => simp [Memory.erase]
  | cons c rest ih =>
    obtain ⟨k, w⟩ := c
    unfold Memory.erase at ih ⊢
    by_cases hk : k = a
    · simp only [hk, ne_eq, not_true, decide_false, Bool.false_eq_true, not_false_eq_true,
        List.filter_cons_of_neg, ih, Memory.byteAt_cons]
      split <;> rfl
    · simp only [ne_eq, hk, not_false_eq_true, decide_true, List.filter_cons_of_pos, ih, Memory.byteAt_cons]
      split
      · rename_i h; simp [h, hk]
      · rfl

theorem Memory.byteAt_insert (m : Memory) (a : Nat) (v : Byte) (b : Nat) :
    (Memory.insert a v (m.erase a)).byteAt b = if b = a then v else m.byteAt b := by
  have key : ∀ l : Memory, (∀ c ∈ l, c.1 ≠ a) →
      (Memory.insert a v l).byteAt b = if b = a then v else l.byteAt b := by
    intro l
    induction l with
    | nil => intro _; simp [Memory.insert, Memory.byteAt_cons]
    | cons c rest ih =>
      obtain ⟨k, w⟩ := c
      intro hl
      have hk : k ≠ a := hl (k, w) (by simp)
      have hr := ih fun c hc => hl c (by simp [hc])
      unfold Memory.insert
      split
      · simp [Memory.byteAt_cons]
      · simp only [Memory.byteAt_cons, hr]
        by_cases hb : b = k
        · simp [hb, hk]
        · simp [hb]
  rw [key _ (by simp [Memory.erase]), Memory.byteAt_erase]
  split <;> rfl

/-- Reading after a write: the written cell holds the value, every other cell what it held. No premise on the memory. -/
theorem Memory.byteAt_setByte (m : Memory) (a : Nat) (v : Byte) (b : Nat) (ha : a < 256) :
    (m.setByte a v).byteAt b = if b = a then v else m.byteAt b := by
  unfold Memory.setByte
  rw [if_pos ha]
  split
  · rename_i hv; rw [Memory.byteAt_erase, hv]
  · exact Memory.byteAt_insert m a v b

theorem Memory.setByte_outside (m : Memory) (a : Nat) (v : Byte) (ha : 256 ≤ a) : m.setByte a v = m := by
  unfold Memory.setByte
  rw [if_neg (by simpa using ha)]

/-! ### The canonical form -/

theorem Memory.wfFrom_mono {lo lo' : Nat} {m : Memory} (h : lo' ≤ lo) (hm : Memory.wfFrom lo m = true) :
    Memory.wfFrom lo' m = true := by
  cases m with
  | nil => rfl
  | cons c rest =>
    obtain ⟨a, v⟩ := c
    simp only [Memory.wfFrom, Bool.and_eq_true, decide_eq_true_eq] at hm ⊢
    exact ⟨⟨⟨by omega, hm.1.1.2⟩, hm.1.2⟩, hm.2⟩

theorem Memory.wfFrom_erase {m : Memory} (a : Nat) : ∀ {lo : Nat}, Memory.wfFrom lo m = true →
    Memory.wfFrom lo (m.erase a) = true := by
  induction m with
  | nil => intro _ _; rfl
  | cons c rest ih =>
    obtain ⟨k, w⟩ := c
    intro lo hm
    simp only [Memory.wfFrom, Bool.and_eq_true, decide_eq_true_eq] at hm
    have hr : Memory.wfFrom (k + 1) (Memory.erase rest a) = true := ih hm.2
    unfold Memory.erase at hr ⊢
    by_cases hk : k = a
    · rw [List.filter_cons_of_neg (by simp [hk])]
      exact Memory.wfFrom_mono (by omega) hr
    · rw [List.filter_cons_of_pos (by simp [hk])]
      simp only [Memory.wfFrom, Bool.and_eq_true, decide_eq_true_eq]
      exact ⟨hm.1, hr⟩

theorem Memory.wfFrom_insert {a : Nat} {v : Byte} (ha : a < 256) (hv : v ≠ Config.blankByte) :
    ∀ {l : Memory} {lo : Nat}, lo ≤ a → (∀ c ∈ l, c.1 ≠ a) → Memory.wfFrom lo l = true →
      Memory.wfFrom lo (Memory.insert a v l) = true := by
  intro l
  induction l with
  | nil =>
    intro lo hlo _ _
    simp [Memory.insert, Memory.wfFrom, hlo, ha, hv]
  | cons c rest ih =>
    obtain ⟨k, w⟩ := c
    intro lo hlo hne hl
    simp only [Memory.wfFrom, Bool.and_eq_true, decide_eq_true_eq] at hl
    have hk : k ≠ a := hne (k, w) (by simp)
    unfold Memory.insert
    split
    · simp only [Memory.wfFrom, Bool.and_eq_true, decide_eq_true_eq]
      exact ⟨⟨⟨hlo, ha⟩, hv⟩, ⟨⟨by omega, hl.1.1.2⟩, hl.1.2⟩, hl.2⟩
    · simp only [Memory.wfFrom, Bool.and_eq_true, decide_eq_true_eq]
      exact ⟨hl.1, ih (by omega) (fun c hc => hne c (by simp [hc])) hl.2⟩

/-- A write keeps the canonical form. -/
theorem Memory.wf_setByte {m : Memory} (a : Nat) (v : Byte) (hm : m.wf = true) : (m.setByte a v).wf = true := by
  unfold Memory.setByte
  split
  · rename_i ha
    split
    · exact Memory.wfFrom_erase a hm
    · rename_i hv
      exact Memory.wfFrom_insert ha hv (Nat.zero_le a) (by simp [Memory.erase]) (Memory.wfFrom_erase a hm)
  · exact hm

/-- A canonical memory lists nothing outside the 256 cells. -/
theorem Memory.byteAt_outside {m : Memory} {a : Nat} (ha : 256 ≤ a) : ∀ {lo : Nat}, Memory.wfFrom lo m = true →
    m.byteAt a = Config.blankByte := by
  induction m with
  | nil => intro _ _; rfl
  | cons c rest ih =>
    obtain ⟨k, w⟩ := c
    intro lo h
    simp only [Memory.wfFrom, Bool.and_eq_true, decide_eq_true_eq] at h
    have hk : a ≠ k := by have : k < 256 := h.1.1.2; omega
    rw [Memory.byteAt_cons, if_neg hk]
    exact ih h.2

@[simp] theorem Memory.wf_nil : Memory.wf [] = true := rfl

/-! ### Writing a list of bytes -/

theorem Memory.byteAt_load (bs : List Byte) : ∀ (m : Memory) (a b : Nat), b < 256 →
    (m.load a bs).byteAt b = if h : a ≤ b ∧ b - a < bs.length then bs[b - a]'h.2 else m.byteAt b := by
  induction bs with
  | nil => intro m a b _; simp [Memory.load]
  | cons v bs ih =>
    intro m a b hb
    rw [Memory.load, ih _ _ _ hb]
    by_cases h1 : a + 1 ≤ b ∧ b - (a + 1) < bs.length
    · have h2 : a ≤ b ∧ b - a < (v :: bs).length := ⟨by omega, by simp only [List.length_cons]; omega⟩
      rw [dif_pos h1, dif_pos h2]
      have h3 : b - a = (b - (a + 1)) + 1 := by omega
      simp [h3]
    · rw [dif_neg h1]
      by_cases hba : b = a
      · subst hba
        rw [Memory.byteAt_setByte _ _ _ _ hb]
        simp
      · have h2 : ¬ (a ≤ b ∧ b - a < (v :: bs).length) := by
          simp only [List.length_cons]; omega
        rw [dif_neg h2]
        by_cases ha : a < 256
        · rw [Memory.byteAt_setByte _ _ _ _ ha, if_neg hba]
        · rw [Memory.setByte_outside _ _ _ (by omega)]

theorem Memory.wf_load (bs : List Byte) : ∀ {m : Memory} (a : Nat), m.wf = true → (m.load a bs).wf = true := by
  induction bs with
  | nil => intro m a hm; exact hm
  | cons v bs ih => intro m a hm; exact ih (a + 1) (Memory.wf_setByte a v hm)

end Sys2Proof.Machine
end

