-- ==== Sys2Proof/Laws/State.lean ====
section
/-! SUPPORT. One lemma per field and observer for each update of State, so that no later proof unfolds a record update. -/

namespace Sys2Proof.Machine

variable (s : State) (i j : RegIndex) (v : Byte) (p : Pc) (r : RunState) (f : Option FaultRecord) (a : Nat) (c : Addr)

/-! ### `x[i] <- v` -/

@[simp] theorem State.setReg_mem : (s.setReg i v).mem = s.mem := rfl
@[simp] theorem State.setReg_pc : (s.setReg i v).pc = s.pc := rfl
@[simp] theorem State.setReg_sp : (s.setReg i v).sp = s.sp := rfl
@[simp] theorem State.setReg_run : (s.setReg i v).run = s.run := rfl
@[simp] theorem State.setReg_fault : (s.setReg i v).fault = s.fault := rfl
@[simp] theorem State.setReg_out : (s.setReg i v).out = s.out := rfl
@[simp] theorem State.setReg_readByte : (s.setReg i v).readByte a = s.readByte a := rfl

@[simp] theorem State.reg_setReg_same : (s.setReg i v).reg i = v := by
  simp [State.reg, State.setReg]

theorem State.reg_setReg_other (h : j ≠ i) : (s.setReg i v).reg j = s.reg j := by
  have : i.val ≠ j.val := fun e => h (Fin.ext e.symm)
  simp [State.reg, State.setReg, this]

/-! ### `M[c] <- v` -/

@[simp] theorem State.writeByte_x : (s.writeByte c v).x = s.x := rfl
@[simp] theorem State.writeByte_reg : (s.writeByte c v).reg i = s.reg i := rfl
@[simp] theorem State.writeByte_pc : (s.writeByte c v).pc = s.pc := rfl
@[simp] theorem State.writeByte_sp : (s.writeByte c v).sp = s.sp := rfl
@[simp] theorem State.writeByte_run : (s.writeByte c v).run = s.run := rfl
@[simp] theorem State.writeByte_fault : (s.writeByte c v).fault = s.fault := rfl
@[simp] theorem State.writeByte_out : (s.writeByte c v).out = s.out := rfl

theorem State.readByte_writeByte : (s.writeByte c v).readByte a = if a = c.toNat then v else s.readByte a :=
  Memory.byteAt_setByte s.mem c.toNat v a c.isLt

@[simp] theorem State.readByte_writeByte_same : (s.writeByte c v).readByte c.toNat = v := by
  rw [State.readByte_writeByte, if_pos rfl]

theorem State.readByte_writeByte_other (h : a ≠ c.toNat) : (s.writeByte c v).readByte a = s.readByte a := by
  rw [State.readByte_writeByte, if_neg h]

/-! ### `out <- out ++ [v]` -/

@[simp] theorem State.emit_x : (s.emit v).x = s.x := rfl
@[simp] theorem State.emit_reg : (s.emit v).reg i = s.reg i := rfl
@[simp] theorem State.emit_mem : (s.emit v).mem = s.mem := rfl
@[simp] theorem State.emit_pc : (s.emit v).pc = s.pc := rfl
@[simp] theorem State.emit_sp : (s.emit v).sp = s.sp := rfl
@[simp] theorem State.emit_run : (s.emit v).run = s.run := rfl
@[simp] theorem State.emit_fault : (s.emit v).fault = s.fault := rfl
@[simp] theorem State.emit_out : (s.emit v).out = s.out ++ [v] := rfl
@[simp] theorem State.emit_readByte : (s.emit v).readByte a = s.readByte a := rfl

/-! ### Plain field updates, seen through the two observers -/

@[simp] theorem State.withSp_reg : State.reg { s with sp := v } i = s.reg i := rfl
@[simp] theorem State.withSp_readByte : State.readByte { s with sp := v } a = s.readByte a := rfl
@[simp] theorem State.withPc_reg : State.reg { s with pc := p } i = s.reg i := rfl
@[simp] theorem State.withPc_readByte : State.readByte { s with pc := p } a = s.readByte a := rfl
@[simp] theorem State.withRun_reg : State.reg { s with run := r } i = s.reg i := rfl
@[simp] theorem State.withRun_readByte : State.readByte { s with run := r } a = s.readByte a := rfl
@[simp] theorem State.withSpPc_reg : State.reg { s with sp := v, pc := p } i = s.reg i := rfl
@[simp] theorem State.withSpPc_readByte : State.readByte { s with sp := v, pc := p } a = s.readByte a := rfl
@[simp] theorem State.withRunFault_reg : State.reg { s with run := r, fault := f } i = s.reg i := rfl
@[simp] theorem State.withRunFault_readByte : State.readByte { s with run := r, fault := f } a = s.readByte a := rfl

/-! ### Two states are equal when every field is -/

theorem State.ext_fields {s t : State} (hx : s.x = t.x) (hm : s.mem = t.mem) (hp : s.pc = t.pc) (hs : s.sp = t.sp)
    (hr : s.run = t.run) (hf : s.fault = t.fault) (ho : s.out = t.out) : s = t := by
  cases s; cases t; simp_all

end Sys2Proof.Machine
end

