-- ==== Sys2Proof/Laws/Ops.lean ====
section
/-! SUPPORT. One lemma for each shared operation that says all it can do: the bounds check, the register check, fault entry,
the PC update. The meanings' lemmas (Laws/Exec.lean) cite these. -/

namespace Sys2Proof.Machine

/-! ### Fault entry -/

/-- The state fault entry leaves. -/
theorem raise_eq (c : Cause) {s : State} (h : s.pc.toNat ≤ 255) :
    raise c s =
      .next { s with run := .faulted, fault := some { cause := c, atPc := s.pc, opcode := s.readByte s.pc.toNat } } := by
  unfold raise
  rw [if_pos (by show s.pc.toNat < 256; omega)]

/-- Fault entry where there is no opcode byte stops. -/
theorem raise_outside (c : Cause) {s : State} (h : 256 ≤ s.pc.toNat) : raise c s = .fault .pcOutsideMemory := by
  unfold raise
  rw [if_neg (by show ¬ s.pc.toNat < 256; omega)]

/-- Fault entry has the shape `Raises` says. -/
theorem raise_raises (c : Cause) {s : State} (h : s.pc.toNat ≤ 255) : Raises s c (raise c s) := by
  rw [raise_eq c h]
  exact ⟨_, rfl, rfl, rfl, fun _ => rfl, fun _ => rfl, rfl, rfl, rfl⟩

/-- Everything fault entry can answer a next state with. -/
theorem raise_next {c : Cause} {s t : State} (h : raise c s = .next t) :
    s.pc.toNat ≤ 255 ∧
      t = { s with run := .faulted, fault := some { cause := c, atPc := s.pc, opcode := s.readByte s.pc.toNat } } := by
  by_cases hp : s.pc.toNat ≤ 255
  · rw [raise_eq c hp] at h
    exact ⟨hp, by injection h with h; exact h.symm⟩
  · rw [raise_outside c (by omega)] at h
    cases h

@[simp] theorem orRaise_ok {α : Type} (v : α) (s : State) (k : α → Result) : orRaise (.ok v) s k = k v := rfl

@[simp] theorem orRaise_error {α : Type} (c : Cause) (s : State) (k : α → Result) :
    orRaise (.error c : Except Cause α) s k = raise c s := rfl

/-- A check answers through its value or through fault entry, nothing else. -/
theorem orRaise_cases {α : Type} {e : Except Cause α} {s : State} {k : α → Result} {o : Result}
    (h : orRaise e s k = o) : (∃ v, e = .ok v ∧ k v = o) ∨ (∃ c, e = .error c ∧ raise c s = o) := by
  cases e with
  | ok v => exact .inl ⟨v, rfl, h⟩
  | error c => exact .inr ⟨c, rfl, h⟩

/-! ### The checks -/

theorem regIndex_names {p : Position} {b : Byte} {i : RegIndex} (h : Names b i) : regIndex p b = .ok i := by
  unfold Names at h
  have hi := i.isLt
  unfold regIndex
  rw [dif_pos (by omega)]
  exact congrArg Except.ok (Fin.ext h)

theorem regIndex_illegal {p : Position} {b : Byte} (h : 8 ≤ b.toNat) :
    regIndex p b = .error (.registerIndexOutOfRange p b) := by
  unfold regIndex
  rw [dif_neg (by omega)]

theorem regIndex_ok {p : Position} {b : Byte} {i : RegIndex} (h : regIndex p b = .ok i) : Names b i := by
  unfold regIndex at h
  split at h
  · injection h with h; subst h; rfl
  · cases h

theorem regIndex_error {p : Position} {b : Byte} {c : Cause} (h : regIndex p b = .error c) :
    8 ≤ b.toNat ∧ c = .registerIndexOutOfRange p b := by
  unfold regIndex at h
  split at h
  · cases h
  · injection h with h; exact ⟨by omega, h.symm⟩

theorem checkAddr_error {site : Site} {v : Int} {c : Cause} (h : checkAddr site v = .error c) :
    (v < 0 ∨ 255 < v) ∧ c = .memoryOutOfRange site v := by
  unfold checkAddr at h
  split at h
  · cases h
  · injection h with h; exact ⟨by omega, h.symm⟩

theorem checkAddr_ok {site : Site} {v : Int} {a : Addr} (h : checkAddr site v = .ok a) :
    0 ≤ v ∧ v ≤ 255 ∧ (a.toNat : Int) = v := by
  unfold checkAddr at h
  split at h
  · rename_i hv
    injection h with h
    subst h
    refine ⟨hv.1, hv.2, ?_⟩
    rw [BitVec.toNat_ofInt]
    omega
  · cases h

theorem checkAddr_inside {site : Site} {v : Int} (h0 : 0 ≤ v) (h1 : v ≤ 255) :
    ∃ a, checkAddr site v = .ok a ∧ (a.toNat : Int) = v := by
  have h : checkAddr site v = .ok (BitVec.ofInt 8 v) := by unfold checkAddr; rw [if_pos ⟨h0, h1⟩]
  exact ⟨_, h, (checkAddr_ok h).2.2⟩

theorem checkAddr_outside {site : Site} {v : Int} (h : v < 0 ∨ 255 < v) :
    checkAddr site v = .error (.memoryOutOfRange site v) := by
  unfold checkAddr
  rw [if_neg (by omega)]

theorem pushSlot_ok {s : State} (h : s.sp.toNat < 255) : ∃ a, pushSlot s = .ok a ∧ a.toNat = s.sp.toNat + 1 := by
  obtain ⟨a, ha, hv⟩ := checkAddr_inside (site := .stackPush) (v := (s.sp.toNat : Int) + 1) (by omega) (by omega)
  exact ⟨a, ha, by omega⟩

theorem pushSlot_full {s : State} (h : s.sp.toNat = 255) : pushSlot s = .error (.memoryOutOfRange .stackPush 256) := by
  unfold pushSlot
  rw [checkAddr_outside (by omega), h]
  rfl

theorem pushSlot_eq_ok {s : State} {a : Addr} (h : pushSlot s = .ok a) :
    s.sp.toNat < 255 ∧ a.toNat = s.sp.toNat + 1 := by
  have := checkAddr_ok h
  omega

theorem pushSlot_eq_error {s : State} {c : Cause} (h : pushSlot s = .error c) :
    s.sp.toNat = 255 ∧ c = .memoryOutOfRange .stackPush 256 := by
  have hb := s.sp.isLt
  have h1 := checkAddr_error h
  have h2 : s.sp.toNat = 255 := by omega
  refine ⟨h2, ?_⟩
  rw [h1.2, h2]
  rfl

theorem poppedSp_ok {s : State} (h : 0 < s.sp.toNat) : ∃ a, poppedSp s = .ok a ∧ a.toNat + 1 = s.sp.toNat := by
  have hb := s.sp.isLt
  obtain ⟨a, ha, hv⟩ := checkAddr_inside (site := .stackPop) (v := (s.sp.toNat : Int) - 1) (by omega) (by omega)
  exact ⟨a, ha, by omega⟩

theorem poppedSp_empty {s : State} (h : s.sp.toNat = 0) : poppedSp s = .error (.memoryOutOfRange .stackPop (-1)) := by
  unfold poppedSp
  rw [checkAddr_outside (by omega), h]
  rfl

theorem poppedSp_eq_ok {s : State} {a : Addr} (h : poppedSp s = .ok a) :
    0 < s.sp.toNat ∧ a.toNat + 1 = s.sp.toNat := by
  have := checkAddr_ok h
  omega

theorem poppedSp_eq_error {s : State} {c : Cause} (h : poppedSp s = .error c) :
    s.sp.toNat = 0 ∧ c = .memoryOutOfRange .stackPop (-1) := by
  have hb := s.sp.isLt
  have h1 := checkAddr_error h
  have h2 : s.sp.toNat = 0 := by omega
  refine ⟨h2, ?_⟩
  rw [h1.2, h2]
  rfl

theorem returnAddress_ok {s : State} (h : s.pc.toNat ≤ 253) :
    ∃ a, returnAddress s = .ok a ∧ a.toNat = s.pc.toNat + 2 := by
  obtain ⟨a, ha, hv⟩ := checkAddr_inside (site := .returnAddress) (v := (s.pc.toNat : Int) + 2) (by omega) (by omega)
  exact ⟨a, ha, by omega⟩

theorem returnAddress_eq_ok {s : State} {a : Byte} (h : returnAddress s = .ok a) :
    s.pc.toNat ≤ 253 ∧ a.toNat = s.pc.toNat + 2 := by
  have := checkAddr_ok h
  omega

theorem returnAddress_at_254 {s : State} (h : s.pc.toNat = 254) :
    returnAddress s = .error (.memoryOutOfRange .returnAddress 256) := by
  unfold returnAddress
  rw [checkAddr_outside (by omega), h]
  rfl

theorem returnAddress_eq_error {s : State} {c : Cause} (h : returnAddress s = .error c) :
    254 ≤ s.pc.toNat ∧ c = .memoryOutOfRange .returnAddress ((s.pc.toNat : Int) + 2) := by
  have h1 := checkAddr_error h
  exact ⟨by omega, h1.2⟩

theorem divisorCheck_zero {s : State} {i j : RegIndex} (h : s.reg j = 0#8) :
    divisorCheck s i j = .error (.divideByZero i j) := by
  unfold divisorCheck; rw [if_pos h]

theorem divisorCheck_nonzero {s : State} {i j : RegIndex} (h : s.reg j ≠ 0#8) : divisorCheck s i j = .ok () := by
  unfold divisorCheck; rw [if_neg h]

/-! ### Zero extension -/

@[simp] theorem zext9_toNat (v : Byte) : (zext9 v).toNat = v.toNat := by
  unfold zext9
  rw [BitVec.toNat_setWidth]
  have := v.isLt
  omega

/-! ### The PC update -/

@[simp] theorem pcUpdate_x (op : Byte) (s : State) : (pcUpdate op s).x = s.x := rfl
@[simp] theorem pcUpdate_reg (op : Byte) (s : State) (i : RegIndex) : (pcUpdate op s).reg i = s.reg i := rfl
@[simp] theorem pcUpdate_mem (op : Byte) (s : State) : (pcUpdate op s).mem = s.mem := rfl
@[simp] theorem pcUpdate_readByte (op : Byte) (s : State) (a : Nat) : (pcUpdate op s).readByte a = s.readByte a := rfl
@[simp] theorem pcUpdate_sp (op : Byte) (s : State) : (pcUpdate op s).sp = s.sp := rfl
@[simp] theorem pcUpdate_fault (op : Byte) (s : State) : (pcUpdate op s).fault = s.fault := rfl
@[simp] theorem pcUpdate_out (op : Byte) (s : State) : (pcUpdate op s).out = s.out := rfl

/-- `P = 0` advances by the length (R76), and the run ends when that reaches 256 (R77). -/
theorem pcUpdate_advances {op : Byte} {s : State} {n : Nat} (hP : setsPc op = false) (hn : operandCount op = n)
    (h : s.pc.toNat + n ≤ 255) :
    (pcUpdate op s).pc.toNat = s.pc.toNat + (n + 1) ∧
      (pcUpdate op s).run = if s.pc.toNat + (n + 1) = 256 then .endOfMemory else s.run := by
  have hpc : (pcUpdate op s).pc = s.pc + BitVec.ofNat 9 (n + 1) := by simp [pcUpdate, hP, hn]
  have hnat : (s.pc + BitVec.ofNat 9 (n + 1)).toNat = s.pc.toNat + (n + 1) := by
    rw [BitVec.toNat_add, BitVec.toNat_ofNat]; omega
  refine ⟨by rw [hpc, hnat], ?_⟩
  have hrun : (pcUpdate op s).run = if s.pc + BitVec.ofNat 9 (n + 1) = Config.sentinel then .endOfMemory else s.run := by
    simp [pcUpdate, hP, hn]
  rw [hrun]
  have hiff : s.pc + BitVec.ofNat 9 (n + 1) = Config.sentinel ↔ s.pc.toNat + (n + 1) = 256 := by
    rw [← hnat, ← BitVec.toNat_inj]
    rfl
  simp only [hiff]

/-- `P = 1` adds nothing (R76). -/
theorem pcUpdate_keeps {op : Byte} {s : State} (hP : setsPc op = true) (h : s.pc.toNat ≤ 255) : pcUpdate op s = s := by
  have hne : s.pc ≠ Config.sentinel := by
    intro e
    have : s.pc.toNat = 256 := by rw [e]; rfl
    omega
  simp [pcUpdate, hP, hne]

end Sys2Proof.Machine
end

