-- ==== Sys2Proof/Laws/Exec.lean ====
section
/-! SUPPORT. What each instruction can do, said once: `Completes i s t` lists the completed effects, `FaultsWith i s c` the faults,
and `exec_cases` says there is nothing else. -/

namespace Sys2Proof.Machine

/-- The completed effects, one per wired instruction. -/
inductive Completes : Instr → State → State → Prop where
  | hlt (s : State) : Completes .hlt s { s with run := .halted }
  | ret (s : State) (below : Byte) (h : below.toNat + 1 = s.sp.toNat) :
      Completes .ret s (pcUpdate opRet { s with sp := below, pc := zext9 (s.readByte s.sp.toNat) })
  | push (s : State) (a : Byte) (i : RegIndex) (slot : Addr) (ha : Names a i) (h : slot.toNat = s.sp.toNat + 1) :
      Completes (.push a) s (pcUpdate opPush ({ s with sp := slot }.writeByte slot (s.reg i)))
  | pop (s : State) (a : Byte) (i : RegIndex) (below : Byte) (ha : Names a i) (h : below.toNat + 1 = s.sp.toNat) :
      Completes (.pop a) s (pcUpdate opPop ({ s with sp := below }.setReg i (s.readByte s.sp.toNat)))
  | prn (s : State) (a : Byte) (i : RegIndex) (ha : Names a i) :
      Completes (.prn a) s (pcUpdate opPrn (s.emit (s.reg i)))
  | call (s : State) (a : Byte) (i : RegIndex) (slot : Addr) (ret : Byte) (ha : Names a i)
      (h : slot.toNat = s.sp.toNat + 1) (hr : ret.toNat = s.pc.toNat + 2) :
      Completes (.call a) s (pcUpdate opCall ({ s with sp := slot, pc := zext9 (s.reg i) }.writeByte slot ret))
  | ldi (s : State) (a imm : Byte) (i : RegIndex) (ha : Names a i) :
      Completes (.ldi a imm) s (pcUpdate opLdi (s.setReg i imm))
  | add (s : State) (a b : Byte) (i j : RegIndex) (ha : Names a i) (hb : Names b j) :
      Completes (.add a b) s (pcUpdate opAdd (s.setReg i (aluAdd (s.reg i) (s.reg j))))
  | sub (s : State) (a b : Byte) (i j : RegIndex) (ha : Names a i) (hb : Names b j) :
      Completes (.sub a b) s (pcUpdate opSub (s.setReg i (aluSub (s.reg i) (s.reg j))))
  | mul (s : State) (a b : Byte) (i j : RegIndex) (ha : Names a i) (hb : Names b j) :
      Completes (.mul a b) s (pcUpdate opMul (s.setReg i (aluMul (s.reg i) (s.reg j))))
  | div (s : State) (a b : Byte) (i j : RegIndex) (ha : Names a i) (hb : Names b j) (hz : s.reg j ≠ 0#8) :
      Completes (.div a b) s (pcUpdate opDiv (s.setReg i (aluDiv (s.reg i) (s.reg j))))
  | and (s : State) (a b : Byte) (i j : RegIndex) (ha : Names a i) (hb : Names b j) :
      Completes (.and a b) s (pcUpdate opAnd (s.setReg i (aluAnd (s.reg i) (s.reg j))))

/-- The faults an instruction's own checks raise. -/
inductive FaultsWith : Instr → State → Cause → Prop where
  | reserved (i : Instr) (s : State) (h : i.wired = false) : FaultsWith i s .unsupportedInstruction
  | indexA (i : Instr) (s : State) (a : Byte) (more : List Byte) (hi : i.registerOperands = a :: more) (h : 8 ≤ a.toNat) :
      FaultsWith i s (.registerIndexOutOfRange .operandA a)
  | indexB (i : Instr) (s : State) (a b : Byte) (hi : i.registerOperands = [a, b]) (ha : a.toNat < 8) (h : 8 ≤ b.toNat) :
      FaultsWith i s (.registerIndexOutOfRange .operandB b)
  | divisor (s : State) (a b : Byte) (i j : RegIndex) (ha : Names a i) (hb : Names b j) (hz : s.reg j = 0#8) :
      FaultsWith (.div a b) s (.divideByZero i j)
  | pushFull (s : State) (a : Byte) (i : RegIndex) (ha : Names a i) (h : s.sp.toNat = 255) :
      FaultsWith (.push a) s (.memoryOutOfRange .stackPush 256)
  | callFull (s : State) (a : Byte) (i : RegIndex) (ha : Names a i) (h : s.sp.toNat = 255) :
      FaultsWith (.call a) s (.memoryOutOfRange .stackPush 256)
  | callReturn (s : State) (a : Byte) (i : RegIndex) (ha : Names a i) (hs : s.sp.toNat < 255) (h : 254 ≤ s.pc.toNat) :
      FaultsWith (.call a) s (.memoryOutOfRange .returnAddress ((s.pc.toNat : Int) + 2))
  | popEmpty (s : State) (a : Byte) (i : RegIndex) (ha : Names a i) (h : s.sp.toNat = 0) :
      FaultsWith (.pop a) s (.memoryOutOfRange .stackPop (-1))
  | retEmpty (s : State) (h : s.sp.toNat = 0) : FaultsWith .ret s (.memoryOutOfRange .stackPop (-1))

/-! ### The meanings on operands that pass their checks -/

theorem execLdi_eq {a : Byte} {i : RegIndex} (imm : Byte) (s : State) (ha : Names a i) :
    exec (.ldi a imm) s = .next (pcUpdate opLdi (s.setReg i imm)) := by
  show execLdi a imm s = _
  unfold execLdi; rw [regIndex_names ha]; rfl

theorem execPrn_eq {a : Byte} {i : RegIndex} (s : State) (ha : Names a i) :
    exec (.prn a) s = .next (pcUpdate opPrn (s.emit (s.reg i))) := by
  show execPrn a s = _
  unfold execPrn; rw [regIndex_names ha]; rfl

theorem execPush_eq {a : Byte} {i : RegIndex} {s : State} {slot : Addr} (ha : Names a i) (hs : pushSlot s = .ok slot) :
    exec (.push a) s = .next (pcUpdate opPush ({ s with sp := slot }.writeByte slot (s.reg i))) := by
  show execPush a s = _
  unfold execPush; rw [regIndex_names ha, hs]; rfl

theorem execPop_eq {a : Byte} {i : RegIndex} {s : State} {below : Byte} (ha : Names a i) (hs : poppedSp s = .ok below) :
    exec (.pop a) s = .next (pcUpdate opPop ({ s with sp := below }.setReg i (s.readByte s.sp.toNat))) := by
  show execPop a s = _
  unfold execPop; rw [regIndex_names ha, hs]; rfl

theorem execCall_eq {a : Byte} {i : RegIndex} {s : State} {slot : Addr} {ret : Byte} (ha : Names a i)
    (hs : pushSlot s = .ok slot) (hr : returnAddress s = .ok ret) :
    exec (.call a) s = .next (pcUpdate opCall ({ s with sp := slot, pc := zext9 (s.reg i) }.writeByte slot ret)) := by
  show execCall a s = _
  unfold execCall; rw [regIndex_names ha, hs, hr]; rfl

theorem execRet_eq {s : State} {below : Byte} (hs : poppedSp s = .ok below) :
    exec .ret s = .next (pcUpdate opRet { s with sp := below, pc := zext9 (s.readByte s.sp.toNat) }) := by
  show execRet s = _
  unfold execRet; rw [hs]; rfl

/-- The ALU frame on operands that pass every check. -/
theorem aluFrame_eq {op a b : Byte} {check : State → RegIndex → RegIndex → Except Cause Unit} {f : Byte → Byte → Byte}
    {i j : RegIndex} {s : State} (ha : Names a i) (hb : Names b j) (hc : check s i j = .ok ()) :
    aluFrame op check f a b s = .next (pcUpdate op (s.setReg i (f (s.reg i) (s.reg j)))) := by
  unfold aluFrame
  rw [regIndex_names ha, regIndex_names hb]
  show orRaise (check s i j) s _ = _
  rw [hc]; rfl

/-- A reserved name raises its fault (spec/30_encoding.md R59). -/
theorem exec_reserved {i : Instr} (s : State) (h : i.wired = false) : exec i s = raise .unsupportedInstruction s := by
  cases i <;> first | rfl | cases h

/-! ### The meanings, case by case -/

theorem execHlt_eq (s : State) : exec .hlt s = .next { s with run := .halted } := rfl

theorem execRet_cases (s : State) :
    (∃ t, Completes .ret s t ∧ exec .ret s = .next t) ∨ (∃ c, FaultsWith .ret s c ∧ exec .ret s = raise c s) := by
  show (∃ t, Completes .ret s t ∧ execRet s = .next t) ∨ (∃ c, FaultsWith .ret s c ∧ execRet s = raise c s)
  unfold execRet
  cases hp : poppedSp s with
  | ok below => exact .inl ⟨_, .ret s below (poppedSp_eq_ok hp).2, rfl⟩
  | error c =>
    obtain ⟨h, rfl⟩ := poppedSp_eq_error hp
    exact .inr ⟨_, .retEmpty s h, rfl⟩

theorem execPush_cases (a : Byte) (s : State) :
    (∃ t, Completes (.push a) s t ∧ exec (.push a) s = .next t) ∨
    (∃ c, FaultsWith (.push a) s c ∧ exec (.push a) s = raise c s) := by
  show (∃ t, Completes (.push a) s t ∧ execPush a s = .next t) ∨ (∃ c, FaultsWith (.push a) s c ∧ execPush a s = raise c s)
  unfold execPush
  cases ha : regIndex .operandA a with
  | error c =>
    obtain ⟨h, rfl⟩ := regIndex_error ha
    exact .inr ⟨_, .indexA _ s a [] rfl h, rfl⟩
  | ok i =>
    cases hp : pushSlot s with
    | ok slot => exact .inl ⟨_, .push s a i slot (regIndex_ok ha) (pushSlot_eq_ok hp).2, rfl⟩
    | error c =>
      obtain ⟨h, rfl⟩ := pushSlot_eq_error hp
      exact .inr ⟨_, .pushFull s a i (regIndex_ok ha) h, rfl⟩

theorem execPop_cases (a : Byte) (s : State) :
    (∃ t, Completes (.pop a) s t ∧ exec (.pop a) s = .next t) ∨
    (∃ c, FaultsWith (.pop a) s c ∧ exec (.pop a) s = raise c s) := by
  show (∃ t, Completes (.pop a) s t ∧ execPop a s = .next t) ∨ (∃ c, FaultsWith (.pop a) s c ∧ execPop a s = raise c s)
  unfold execPop
  cases ha : regIndex .operandA a with
  | error c =>
    obtain ⟨h, rfl⟩ := regIndex_error ha
    exact .inr ⟨_, .indexA _ s a [] rfl h, rfl⟩
  | ok i =>
    cases hp : poppedSp s with
    | ok below => exact .inl ⟨_, .pop s a i below (regIndex_ok ha) (poppedSp_eq_ok hp).2, rfl⟩
    | error c =>
      obtain ⟨h, rfl⟩ := poppedSp_eq_error hp
      exact .inr ⟨_, .popEmpty s a i (regIndex_ok ha) h, rfl⟩

theorem execPrn_cases (a : Byte) (s : State) :
    (∃ t, Completes (.prn a) s t ∧ exec (.prn a) s = .next t) ∨
    (∃ c, FaultsWith (.prn a) s c ∧ exec (.prn a) s = raise c s) := by
  show (∃ t, Completes (.prn a) s t ∧ execPrn a s = .next t) ∨ (∃ c, FaultsWith (.prn a) s c ∧ execPrn a s = raise c s)
  unfold execPrn
  cases ha : regIndex .operandA a with
  | error c =>
    obtain ⟨h, rfl⟩ := regIndex_error ha
    exact .inr ⟨_, .indexA _ s a [] rfl h, rfl⟩
  | ok i => exact .inl ⟨_, .prn s a i (regIndex_ok ha), rfl⟩

theorem execLdi_cases (a imm : Byte) (s : State) :
    (∃ t, Completes (.ldi a imm) s t ∧ exec (.ldi a imm) s = .next t) ∨
    (∃ c, FaultsWith (.ldi a imm) s c ∧ exec (.ldi a imm) s = raise c s) := by
  show (∃ t, Completes (.ldi a imm) s t ∧ execLdi a imm s = .next t) ∨
    (∃ c, FaultsWith (.ldi a imm) s c ∧ execLdi a imm s = raise c s)
  unfold execLdi
  cases ha : regIndex .operandA a with
  | error c =>
    obtain ⟨h, rfl⟩ := regIndex_error ha
    exact .inr ⟨_, .indexA _ s a [] rfl h, rfl⟩
  | ok i => exact .inl ⟨_, .ldi s a imm i (regIndex_ok ha), rfl⟩

theorem execCall_cases (a : Byte) (s : State) :
    (∃ t, Completes (.call a) s t ∧ exec (.call a) s = .next t) ∨
    (∃ c, FaultsWith (.call a) s c ∧ exec (.call a) s = raise c s) := by
  show (∃ t, Completes (.call a) s t ∧ execCall a s = .next t) ∨ (∃ c, FaultsWith (.call a) s c ∧ execCall a s = raise c s)
  unfold execCall
  cases ha : regIndex .operandA a with
  | error c =>
    obtain ⟨h, rfl⟩ := regIndex_error ha
    exact .inr ⟨_, .indexA _ s a [] rfl h, rfl⟩
  | ok i =>
    cases hp : pushSlot s with
    | error c =>
      obtain ⟨h, rfl⟩ := pushSlot_eq_error hp
      exact .inr ⟨_, .callFull s a i (regIndex_ok ha) h, rfl⟩
    | ok slot =>
      obtain ⟨hs, hslot⟩ := pushSlot_eq_ok hp
      cases hr : returnAddress s with
      | ok ret => exact .inl ⟨_, .call s a i slot ret (regIndex_ok ha) hslot (returnAddress_eq_ok hr).2, rfl⟩
      | error c =>
        obtain ⟨h, rfl⟩ := returnAddress_eq_error hr
        exact .inr ⟨_, .callReturn s a i (regIndex_ok ha) hs h, rfl⟩

/-- The ALU frame (spec/44_alu.md R120) says once what the five ALU instructions can do. -/
theorem aluFrame_cases (op : Byte) (check : State → RegIndex → RegIndex → Except Cause Unit) (f : Byte → Byte → Byte)
    (a b : Byte) (s : State) :
    (∃ i j, Names a i ∧ Names b j ∧ check s i j = .ok () ∧
      aluFrame op check f a b s = .next (pcUpdate op (s.setReg i (f (s.reg i) (s.reg j))))) ∨
    (8 ≤ a.toNat ∧ aluFrame op check f a b s = raise (.registerIndexOutOfRange .operandA a) s) ∨
    (a.toNat < 8 ∧ 8 ≤ b.toNat ∧ aluFrame op check f a b s = raise (.registerIndexOutOfRange .operandB b) s) ∨
    (∃ i j c, Names a i ∧ Names b j ∧ check s i j = .error c ∧ aluFrame op check f a b s = raise c s) := by
  unfold aluFrame
  cases ha : regIndex .operandA a with
  | error c =>
    obtain ⟨h, rfl⟩ := regIndex_error ha
    exact .inr (.inl ⟨h, rfl⟩)
  | ok i =>
    have hai := regIndex_ok ha
    cases hb : regIndex .operandB b with
    | error c =>
      obtain ⟨h, rfl⟩ := regIndex_error hb
      exact .inr (.inr (.inl ⟨by have := i.isLt; unfold Names at hai; omega, h, rfl⟩))
    | ok j =>
      cases hc : check s i j with
      | ok u => exact .inl ⟨i, j, hai, regIndex_ok hb, hc, by simp [hc]⟩
      | error c => exact .inr (.inr (.inr ⟨i, j, c, hai, regIndex_ok hb, hc, by simp [hc]⟩))

/-- An ALU instruction with no check of its own. -/
theorem aluFrame_noCheck_cases {op : Byte} {f : Byte → Byte → Byte} {mk : Byte → Byte → Instr} (a b : Byte) (s : State)
    (hx : exec (mk a b) s = aluFrame op noCheck f a b s) (ho : (mk a b).registerOperands = [a, b])
    (hc : ∀ i j, Names a i → Names b j → Completes (mk a b) s (pcUpdate op (s.setReg i (f (s.reg i) (s.reg j))))) :
    (∃ t, Completes (mk a b) s t ∧ exec (mk a b) s = .next t) ∨
    (∃ c, FaultsWith (mk a b) s c ∧ exec (mk a b) s = raise c s) := by
  rw [hx]
  obtain ⟨i, j, ha, hb, -, h⟩ | ⟨ha, h⟩ | ⟨ha, hb, h⟩ | ⟨i, j, c, -, -, he, -⟩ := aluFrame_cases op noCheck f a b s
  · exact .inl ⟨_, hc i j ha hb, h⟩
  · exact .inr ⟨_, .indexA _ s a [b] ho ha, h⟩
  · exact .inr ⟨_, .indexB _ s a b ho ha hb, h⟩
  · cases he

theorem execDiv_cases (a b : Byte) (s : State) :
    (∃ t, Completes (.div a b) s t ∧ exec (.div a b) s = .next t) ∨
    (∃ c, FaultsWith (.div a b) s c ∧ exec (.div a b) s = raise c s) := by
  show (∃ t, Completes (.div a b) s t ∧ aluFrame opDiv divisorCheck aluDiv a b s = .next t) ∨
    (∃ c, FaultsWith (.div a b) s c ∧ aluFrame opDiv divisorCheck aluDiv a b s = raise c s)
  obtain ⟨i, j, ha, hb, hd, h⟩ | ⟨ha, h⟩ | ⟨ha, hb, h⟩ | ⟨i, j, c, ha, hb, hd, h⟩ :=
    aluFrame_cases opDiv divisorCheck aluDiv a b s
  · refine .inl ⟨_, .div s a b i j ha hb ?_, h⟩
    intro hz
    rw [divisorCheck_zero hz] at hd
    cases hd
  · exact .inr ⟨_, .indexA _ s a [b] rfl ha, h⟩
  · exact .inr ⟨_, .indexB _ s a b rfl ha hb, h⟩
  · by_cases hz : s.reg j = 0#8
    · rw [divisorCheck_zero hz] at hd
      injection hd with hd
      subst hd
      exact .inr ⟨_, .divisor s a b i j ha hb hz, h⟩
    · rw [divisorCheck_nonzero hz] at hd
      cases hd

/-- An instruction completes or raises one fault, and there is nothing else it can do (spec/40_cycle.md R75). -/
theorem exec_cases (i : Instr) (s : State) :
    (∃ t, Completes i s t ∧ exec i s = .next t) ∨ (∃ c, FaultsWith i s c ∧ exec i s = raise c s) := by
  cases i with
  | hlt => exact .inl ⟨_, .hlt s, rfl⟩
  | ret => exact execRet_cases s
  | push a => exact execPush_cases a s
  | pop a => exact execPop_cases a s
  | prn a => exact execPrn_cases a s
  | call a => exact execCall_cases a s
  | ldi a imm => exact execLdi_cases a imm s
  | add a b => exact aluFrame_noCheck_cases a b s rfl rfl fun i j ha hb => .add s a b i j ha hb
  | sub a b => exact aluFrame_noCheck_cases a b s rfl rfl fun i j ha hb => .sub s a b i j ha hb
  | mul a b => exact aluFrame_noCheck_cases a b s rfl rfl fun i j ha hb => .mul s a b i j ha hb
  | div a b => exact execDiv_cases a b s
  | and a b => exact aluFrame_noCheck_cases a b s rfl rfl fun i j ha hb => .and s a b i j ha hb
  | cmp => exact .inr ⟨_, .reserved _ s rfl, rfl⟩
  | dec => exact .inr ⟨_, .reserved _ s rfl, rfl⟩
  | inc => exact .inr ⟨_, .reserved _ s rfl, rfl⟩
  | mod => exact .inr ⟨_, .reserved _ s rfl, rfl⟩
  | not => exact .inr ⟨_, .reserved _ s rfl, rfl⟩
  | or => exact .inr ⟨_, .reserved _ s rfl, rfl⟩
  | xor => exact .inr ⟨_, .reserved _ s rfl, rfl⟩

/-! ### What every completed instruction leaves -/

theorem Completes.fault_eq {i : Instr} {s t : State} (h : Completes i s t) : t.fault = s.fault := by
  cases h <;> rfl

theorem Completes.memCanonical {i : Instr} {s t : State} (h : Completes i s t) (hm : s.mem.wf = true) : t.mem.wf = true := by
  cases h <;> first | exact hm | exact Memory.wf_setByte _ _ hm

/-- An instruction with `P = 0` and `n` operand bytes, inside memory, advances by its length. -/
theorem pcUpdate_advancedBy {s u : State} {op : Byte} {n : Nat} (hR : Ready s n) (hpc : u.pc = s.pc) (hrun : u.run = s.run)
    (hP : setsPc op = false) (hn : operandCount op = n) : AdvancedBy s (pcUpdate op u) (n + 1) := by
  have h := pcUpdate_advances (s := u) hP hn (by rw [hpc]; exact hR.2)
  rw [hpc, hrun, hR.1] at h
  exact h

/-- Where `pc` and the run state stand after a completed instruction: HLT, RET, CALL, or an advance by the length. -/
theorem Completes.pc_cases {i : Instr} {s t : State} (h : Completes i s t) (hr : s.run = .running)
    (hp : s.pc.toNat + (encode i).length ≤ 256) :
    (i = .hlt ∧ t.pc = s.pc ∧ t.run = .halted) ∨
    (i = .ret ∧ t.pc.toNat = (s.readByte s.sp.toNat).toNat ∧ t.run = .running) ∨
    (∃ a j, i = .call a ∧ Names a j ∧ t.pc.toNat = (s.reg j).toNat ∧ t.run = .running) ∨
    (i.wired = true ∧ i ≠ .hlt ∧ i ≠ .ret ∧ (∀ a, i ≠ .call a) ∧ setsPc i.opcode = false ∧ 1 ≤ operandCount i.opcode ∧
      AdvancedBy s t (operandCount i.opcode + 1)) := by
  have byte_le : ∀ b : Byte, b.toNat ≤ 255 := fun b => by have := b.isLt; omega
  cases h with
  | hlt => exact .inl ⟨rfl, rfl, rfl⟩
  | ret _ _ =>
    refine .inr (.inl ⟨rfl, ?_⟩)
    rw [pcUpdate_keeps (by decide) (by simpa using byte_le _)]
    exact ⟨zext9_toNat _, hr⟩
  | call _ a j slot ret ha h hr' =>
    refine .inr (.inr (.inl ⟨_, _, rfl, ha, ?_⟩))
    rw [pcUpdate_keeps (by decide) (by simpa using byte_le _)]
    exact ⟨zext9_toNat _, hr⟩
  | _ =>
    refine .inr (.inr (.inr ⟨rfl, by simp, by simp, by simp, by simp only [Instr.opcode]; rfl,
      by simp [Instr.opcode, operandCount], ?_⟩))
    simp only [encode, Instr.operands, List.length_cons, List.length_nil] at hp
    refine pcUpdate_advancedBy ⟨hr, ?_⟩ rfl rfl rfl rfl
    simp [Instr.opcode, operandCount]
    omega

/-- A completed instruction does not leave the engine Faulted. -/
theorem Completes.run_ne_faulted {i : Instr} {s t : State} (h : Completes i s t) (hr : s.run = .running)
    (hp : s.pc.toNat + (encode i).length ≤ 256) : t.run ≠ .faulted := by
  obtain ⟨-, -, h2⟩ | ⟨-, -, h2⟩ | ⟨_, _, -, -, -, h2⟩ | ⟨-, -, -, -, -, -, -, h2⟩ := h.pc_cases hr hp <;> rw [h2]
  · simp
  · simp
  · simp
  · split <;> simp

end Sys2Proof.Machine
end

