-- ==== Sys2Proof/Laws/Step.lean ====
section
/-! SUPPORT. What a step can do, said once: fetch's window, and the cases of a cycle. -/

namespace Sys2Proof.Machine

/-! ### The fetch window -/

theorem codeWindow_outside {s : State} (h : 256 ≤ s.pc.toNat) : codeWindow s = [] := by
  have h0 : ¬ s.pc.toNat < 256 := by omega
  have h1 : ¬ s.pc.toNat + 1 < 256 := by omega
  have h2 : ¬ s.pc.toNat + 2 < 256 := by omega
  simp [codeWindow, h0, h1, h2]

/-- The window is the opcode byte and the bytes after it that are inside memory, at most two. -/
theorem codeWindow_inside {s : State} (h : s.pc.toNat ≤ 255) :
    ∃ rest, codeWindow s = s.readByte s.pc.toNat :: rest ∧ rest.length = min 2 (255 - s.pc.toNat) ∧
      ∀ k (hk : k < rest.length), rest[k] = s.readByte (s.pc.toNat + (k + 1)) := by
  have h0 : s.pc.toNat < 256 := by omega
  by_cases h1 : s.pc.toNat + 1 < 256
  · by_cases h2 : s.pc.toNat + 2 < 256
    · refine ⟨[s.readByte (s.pc.toNat + 1), s.readByte (s.pc.toNat + 2)], by simp [codeWindow, h0, h1, h2], ?_, ?_⟩
      · simp only [List.length_cons, List.length_nil]; omega
      · intro k hk
        match k, hk with
        | 0, _ => rfl
        | 1, _ => rfl
    · refine ⟨[s.readByte (s.pc.toNat + 1)], by simp [codeWindow, h0, h1, h2], ?_, ?_⟩
      · simp only [List.length_cons, List.length_nil]; omega
      · intro k hk
        match k, hk with
        | 0, _ => rfl
  · have h2 : ¬ s.pc.toNat + 2 < 256 := by omega
    refine ⟨[], by simp [codeWindow, h0, h1, h2], ?_, ?_⟩
    · simp only [List.length_nil]; omega
    · intro k hk
      cases hk

/-- Bytes that stand at `pc` are the start of the window, when there are at most three. -/
theorem codeWindow_of_codeAt {s : State} {bytes : List Byte} (h : CodeAt s bytes) (h1 : 1 ≤ bytes.length)
    (h3 : bytes.length ≤ 3) : ∃ tail, codeWindow s = bytes ++ tail := by
  obtain ⟨hl, hb⟩ := h
  obtain ⟨rest, hw, hr, hk⟩ := codeWindow_inside (s := s) (by omega)
  match bytes, h1, h3 with
  | [a], _, _ =>
    have ha : s.readByte s.pc.toNat = a := hb 0 (by simp)
    exact ⟨rest, by rw [hw, ha]; rfl⟩
  | [a, b], _, _ =>
    have ha : s.readByte s.pc.toNat = a := hb 0 (by simp)
    have hb1 : s.readByte (s.pc.toNat + 1) = b := hb 1 (by simp)
    simp only [List.length_cons, List.length_nil] at hl
    match rest, hr, hk with
    | [], hr, _ => simp only [List.length_nil] at hr; omega
    | c :: tail, _, hk =>
      have hc : c = b := by rw [← hb1]; exact hk 0 (by simp)
      exact ⟨tail, by rw [hw, ha, hc]; rfl⟩
  | [a, b, d], _, _ =>
    have ha : s.readByte s.pc.toNat = a := hb 0 (by simp)
    have hb1 : s.readByte (s.pc.toNat + 1) = b := hb 1 (by simp)
    have hb2 : s.readByte (s.pc.toNat + 2) = d := hb 2 (by simp)
    simp only [List.length_cons, List.length_nil] at hl
    match rest, hr, hk with
    | [], hr, _ => simp only [List.length_nil] at hr; omega
    | [_], hr, _ => simp only [List.length_cons, List.length_nil] at hr; omega
    | c :: e :: tail, _, hk =>
      have hc : c = b := by rw [← hb1]; exact hk 0 (by simp)
      have he : e = d := by rw [← hb2]; exact hk 1 (by simp)
      exact ⟨tail, by rw [hw, ha, hc, he]; rfl⟩

/-! ### A step -/

theorem step_terminal {s : State} (h : s.run ≠ .running) : step s = .next s := by
  unfold step
  cases hr : s.run with
  | running => exact absurd hr h
  | halted => rfl
  | endOfMemory => rfl
  | faulted => rfl

theorem step_decoded {s : State} {i : Instr} {rest : List Byte} (hr : s.run = .running)
    (h : decode (codeWindow s) = .ok (i, rest)) : step s = exec i s := by
  simp [step, hr, fetch, h]

theorem step_failed {s : State} {e : DecodeError} (hr : s.run = .running) (h : decode (codeWindow s) = .error e) :
    step s = fetchFailed e s := by
  simp [step, hr, fetch, h]

/-- What a cycle's fetch comes to: the encoding of the executed instruction stands at `pc`; a needed operand is past 255; or the
byte is not wired. -/
theorem step_fetch_cases {s : State} (hr : s.run = .running) (hp : s.pc.toNat ≤ 255) :
    (∃ i, CodeAt s (encode i) ∧ step s = exec i s) ∨
    (isWired (s.readByte s.pc.toNat) = true ∧ 255 < s.pc.toNat + operandCount (s.readByte s.pc.toNat) ∧
      step s = raise (.memoryOutOfRange .operandFetch 256) s) ∨
    (isWired (s.readByte s.pc.toNat) = false ∧ step s = raise .unsupportedInstruction s) := by
  obtain ⟨rest, hw, hl, hk⟩ := codeWindow_inside hp
  obtain ⟨i, tail, ho, ht, hd⟩ | ⟨hwd, hn, hd⟩ | ⟨hwd, hd⟩ := decode_cons_cases (s.readByte s.pc.toNat) rest
  · refine .inl ⟨i, ⟨?_, ?_⟩, step_decoded hr (by rw [hw, hd])⟩
    · have : i.operands.length ≤ rest.length := by rw [ht, List.length_append]; omega
      simp only [encode, List.length_cons]
      omega
    · intro k hk'
      match k, hk' with
      | 0, _ => exact ho.symm
      | k + 1, hk' =>
        have h1 : k < i.operands.length := by simpa [encode] using hk'
        have h2 : k < rest.length := by rw [ht, List.length_append]; omega
        rw [← hk k h2]
        simp only [encode, List.getElem_cons_succ, ht]
        rw [List.getElem_append_left h1]
  · refine .inr (.inl ⟨hwd, ?_, step_failed (e := .operandMissing (s.readByte s.pc.toNat)) hr (by rw [hw, hd])⟩)
    have : operandCount (s.readByte s.pc.toNat) ≤ 3 := by
      unfold operandCount
      rw [BitVec.toNat_ushiftRight, Nat.shiftRight_eq_div_pow]
      have := (s.readByte s.pc.toNat).isLt
      omega
    have h3 : operandCount (s.readByte s.pc.toNat) ≠ 3 := by
      intro h3
      simp only [isWired, wiredOpcodes, List.contains_eq_mem, List.mem_cons, List.not_mem_nil, or_false,
        decide_eq_true_eq] at hwd
      rcases hwd with h | h | h | h | h | h | h | h | h | h | h | h <;> rw [h] at h3 <;> revert h3 <;> decide
    omega
  · exact .inr (.inr ⟨hwd, step_failed (e := .unsupported (s.readByte s.pc.toNat)) hr (by rw [hw, hd])⟩)

/-- Everything a cycle of a Running engine can do: the instruction at `pc` completes, or one fault is raised, and then it is a
fault of that instruction, a missing operand byte, or an unwired byte. -/
theorem step_cases {s : State} (hr : s.run = .running) (hp : s.pc.toNat ≤ 255) :
    (∃ i t, CodeAt s (encode i) ∧ Completes i s t ∧ step s = .next t) ∨
    (∃ c, step s = raise c s ∧
      ((∃ i, CodeAt s (encode i) ∧ FaultsWith i s c) ∨
       (c = .memoryOutOfRange .operandFetch 256 ∧ isWired (s.readByte s.pc.toNat) = true ∧
         255 < s.pc.toNat + operandCount (s.readByte s.pc.toNat)) ∨
       (c = .unsupportedInstruction ∧ isWired (s.readByte s.pc.toNat) = false))) := by
  obtain ⟨i, hc, hs⟩ | ⟨hw, hn, hs⟩ | ⟨hw, hs⟩ := step_fetch_cases hr hp
  · obtain ⟨t, ht, he⟩ | ⟨c, hf, he⟩ := exec_cases i s
    · exact .inl ⟨i, t, hc, ht, by rw [hs, he]⟩
    · exact .inr ⟨c, by rw [hs, he], .inl ⟨i, hc, hf⟩⟩
  · exact .inr ⟨_, hs, .inr (.inl ⟨rfl, hw, hn⟩)⟩
  · exact .inr ⟨_, hs, .inr (.inr ⟨rfl, hw⟩)⟩

/-- A Running engine with `pc` outside memory stops: the one place a step has no next state (log entry 4). -/
theorem step_outside {s : State} (hr : s.run = .running) (hp : 256 ≤ s.pc.toNat) : step s = .fault .pcOutsideMemory :=
  step_failed (e := .noByte) hr (by rw [codeWindow_outside hp]; rfl)

/-- Everything a step that answers a next state did. -/
theorem step_next_cases {s t : State} (h : step s = .next t) :
    (s.run ≠ .running ∧ t = s) ∨
    (s.run = .running ∧ s.pc.toNat ≤ 255 ∧ ∃ i, CodeAt s (encode i) ∧ Completes i s t) ∨
    (s.run = .running ∧ s.pc.toNat ≤ 255 ∧ ∃ c, step s = raise c s ∧
      t = { s with run := .faulted, fault := some { cause := c, atPc := s.pc, opcode := s.readByte s.pc.toNat } } ∧
      ((∃ i, CodeAt s (encode i) ∧ FaultsWith i s c) ∨
       (c = .memoryOutOfRange .operandFetch 256 ∧ isWired (s.readByte s.pc.toNat) = true ∧
         255 < s.pc.toNat + operandCount (s.readByte s.pc.toNat)) ∨
       (c = .unsupportedInstruction ∧ isWired (s.readByte s.pc.toNat) = false))) := by
  by_cases hr : s.run = .running
  · by_cases hp : s.pc.toNat ≤ 255
    · obtain ⟨i, u, hc, hu, hs⟩ | ⟨c, hs, hw⟩ := step_cases hr hp
      · rw [hs] at h
        injection h with h
        subst h
        exact .inr (.inl ⟨hr, hp, i, hc, hu⟩)
      · rw [hs] at h
        exact .inr (.inr ⟨hr, hp, c, hs, (raise_next h).2, hw⟩)
    · rw [step_outside hr (by omega)] at h
      cases h
  · rw [step_terminal hr] at h
    injection h with h
    exact .inl ⟨hr, h.symm⟩

/-! ### A sequence of steps -/

@[simp] theorem runFor_zero (s : State) : runFor 0 s = .next s := rfl

theorem runFor_succ_of_next {s t : State} (k : Nat) (h : step s = .next t) : runFor (k + 1) s = runFor k t := by
  rw [runFor, h]

/-- A sequence of steps that answers a next state passed through one. -/
theorem runFor_succ_next {s u : State} {k : Nat} (h : runFor (k + 1) s = .next u) :
    ∃ t, step s = .next t ∧ runFor k t = .next u := by
  rw [runFor] at h
  cases hs : step s with
  | next t => rw [hs] at h; exact ⟨t, rfl, h⟩
  | fault f => rw [hs] at h; cases h
  | refused r => rw [hs] at h; cases h

/-- The model's own sequence of steps is the host's. -/
theorem runFor_eq_core_run (k : Nat) : ∀ s : State, Host.Core.run core k s = runFor k s := by
  induction k with
  | zero => intro s; rfl
  | succ k ih =>
    intro s
    cases h : step s with
    | next t =>
      rw [runFor_succ_of_next k h, ← ih t]
      have h' : core.step s = .next t := h
      simp only [Host.Core.run, h']
    | fault f =>
      have h' : core.step s = .fault f := h
      simp only [runFor, h, Host.Core.run, h']
      rfl
    | refused r =>
      have h' : core.step s = .refused r := h
      simp only [runFor, h, Host.Core.run, h']
      rfl

/-- The opcode byte of the instruction at `pc`. -/
theorem opcodeAt_of_codeAt {s : State} {i : Instr} (h : CodeAt s (encode i)) : OpcodeAt s i.opcode := by
  obtain ⟨hl, hk⟩ := h
  have h0 : 0 < (encode i).length := by simp [encode]
  refine ⟨by omega, ?_⟩
  exact hk 0 h0

theorem wired_of_codeAt {s : State} {i : Instr} (h : CodeAt s (encode i)) : i.wired = isWired (s.readByte s.pc.toNat) := by
  rw [(opcodeAt_of_codeAt h).2, Instr.wired_eq]

/-- The first operand byte of the instruction at `pc`. -/
theorem operandA_of_codeAt {s : State} {i : Instr} {a : Byte} {more : List Byte} (h : CodeAt s (encode i))
    (hi : i.operands = a :: more) : s.readByte (s.pc.toNat + 1) = a := by
  rw [h.2 1 (by simp [encode, hi])]
  simp [encode, hi]

theorem codeAt_one {s : State} {x : Byte} (h : CodeAt s [x]) : s.pc.toNat ≤ 255 ∧ s.readByte s.pc.toNat = x := by
  have hl := h.1
  simp only [List.length_cons, List.length_nil] at hl
  exact ⟨by omega, h.2 0 (by simp)⟩

theorem codeAt_two {s : State} {x y : Byte} (h : CodeAt s [x, y]) :
    s.pc.toNat ≤ 254 ∧ s.readByte s.pc.toNat = x ∧ s.readByte (s.pc.toNat + 1) = y := by
  have hl := h.1
  simp only [List.length_cons, List.length_nil] at hl
  exact ⟨by omega, h.2 0 (by simp), h.2 1 (by simp)⟩

theorem codeAt_three {s : State} {x y z : Byte} (h : CodeAt s [x, y, z]) :
    s.pc.toNat ≤ 253 ∧ s.readByte s.pc.toNat = x ∧ s.readByte (s.pc.toNat + 1) = y ∧ s.readByte (s.pc.toNat + 2) = z := by
  have hl := h.1
  simp only [List.length_cons, List.length_nil] at hl
  exact ⟨by omega, h.2 0 (by simp), h.2 1 (by simp), h.2 2 (by simp)⟩

end Sys2Proof.Machine
end

