-- ==== Sys2Proof/Laws/HostPort.lean ====
section
/-! SUPPORT. What a host write does, item by item, and what a list of them does. -/

namespace Sys2Proof.Machine

variable (s : State) (i : RegIndex) (a : Addr) (v : Byte) (r : RunState) (f : FaultRecord) (bytes : List Byte)

@[simp] theorem hostWrite_reg : hostWrite (.reg i v) s = s.setReg i v := rfl
@[simp] theorem hostWrite_mem : hostWrite (.mem a v) s = s.writeByte a v := rfl
@[simp] theorem hostWrite_pc : hostWrite (.pc a) s = { s with pc := zext9 a } := rfl
@[simp] theorem hostWrite_sp : hostWrite (.sp v) s = { s with sp := v } := rfl
theorem hostWrite_run : hostWrite (.run r) s = if s.run = .running then { s with run := r } else s := rfl
theorem hostWrite_fault :
    hostWrite (.fault f) s = if s.run = .faulted ∧ s.fault = none then { s with fault := some f } else s := rfl
@[simp] theorem hostWrite_out : hostWrite (.out bytes) s = { s with out := bytes } := rfl

@[simp] theorem hostWrites_nil : hostWrites [] s = s := rfl
@[simp] theorem hostWrites_cons (w : HostWrite) (ws : List HostWrite) :
    hostWrites (w :: ws) s = hostWrites ws (hostWrite w s) := rfl

theorem hostWrites_append (ws ws' : List HostWrite) (s : State) :
    hostWrites (ws ++ ws') s = hostWrites ws' (hostWrites ws s) := by
  induction ws generalizing s with
  | nil => rfl
  | cons w ws ih => exact ih (hostWrite w s)

/-- A host write keeps the canonical form of memory. -/
theorem hostWrite_keeps_wf (w : HostWrite) (h : s.mem.wf = true) : (hostWrite w s).mem.wf = true := by
  cases w with
  | mem a v => exact Memory.wf_setByte _ _ h
  | reg _ _ => exact h
  | pc _ => exact h
  | sp _ => exact h
  | run _ => rw [hostWrite_run]; split <;> exact h
  | fault _ => rw [hostWrite_fault]; split <;> exact h
  | out _ => exact h

/-- Writing every register puts the whole register file. -/
theorem hostWrites_regs (x : Vector Byte 8) (s : State) :
    hostWrites [.reg 0 x[0], .reg 1 x[1], .reg 2 x[2], .reg 3 x[3], .reg 4 x[4], .reg 5 x[5], .reg 6 x[6], .reg 7 x[7]] s =
      { s with x := x } := by
  apply State.ext_fields <;> try rfl
  simp only [hostWrites_cons, hostWrites_nil, hostWrite_reg, State.setReg]
  ext k hk
  have : k = 0 ∨ k = 1 ∨ k = 2 ∨ k = 3 ∨ k = 4 ∨ k = 5 ∨ k = 6 ∨ k = 7 := by omega
  rcases this with rfl | rfl | rfl | rfl | rfl | rfl | rfl | rfl <;> simp

/-- Writing bytes from cell `a` on is what the load port does, as long as they lie inside memory. -/
theorem hostWrites_mem (bs : List Byte) : ∀ (a : Nat) (s : State), a + bs.length ≤ 256 →
    hostWrites (bs.mapIdx fun k v => .mem (BitVec.ofNat 8 (a + k)) v) s = { s with mem := s.mem.load a bs } := by
  induction bs with
  | nil => intro a s _; rfl
  | cons v bs ih =>
    intro a s h
    rw [List.length_cons] at h
    have hn : (BitVec.ofNat 8 a).toNat = a := by rw [BitVec.toNat_ofNat]; omega
    have hs : (fun k (v : Byte) => HostWrite.mem (BitVec.ofNat 8 (a + (k + 1))) v) =
        fun k v => .mem (BitVec.ofNat 8 (a + 1 + k)) v := by
      funext k v; rw [show a + (k + 1) = a + 1 + k by omega]
    rw [List.mapIdx_cons, hostWrites_cons, hs, ih (a + 1) _ (by omega), hostWrite_mem, Memory.load]
    simp only [State.writeByte, Nat.add_zero, hn]

/-! ### What a host write can do to each item -/

/-- A terminal run state stays as it is (decision D18; spec/70_reset_and_hazards.md R170). -/
theorem hostWrite_keeps_terminal (w : HostWrite) (h : s.run ≠ .running) : (hostWrite w s).run = s.run := by
  cases w with
  | run _ => rw [hostWrite_run, if_neg h]
  | fault _ => rw [hostWrite_fault]; split <;> rfl
  | reg _ _ => rfl
  | mem _ _ => rfl
  | pc _ => rfl
  | sp _ => rfl
  | out _ => rfl

/-- `pc` is the one there was, or 0 to 255. -/
theorem hostWrite_pc_cases (w : HostWrite) : (hostWrite w s).pc = s.pc ∨ (hostWrite w s).pc.toNat ≤ 255 := by
  cases w with
  | pc a => right; have := a.isLt; simp [zext9]; omega
  | run _ => left; rw [hostWrite_run]; split <;> rfl
  | fault _ => left; rw [hostWrite_fault]; split <;> rfl
  | reg _ _ => exact .inl rfl
  | mem _ _ => exact .inl rfl
  | sp _ => exact .inl rfl
  | out _ => exact .inl rfl

/-- The record is the one there was, or the first one of a Faulted engine (spec/10_state.md R19). -/
theorem hostWrite_fault_cases (w : HostWrite) :
    (hostWrite w s).fault = s.fault ∨ (s.fault = none ∧ s.run = .faulted ∧ (hostWrite w s).run = .faulted) := by
  cases w with
  | fault _ =>
    rw [hostWrite_fault]
    split
    · rename_i h; exact .inr ⟨h.2, h.1, h.1⟩
    · exact .inl rfl
  | run _ => left; rw [hostWrite_run]; split <;> rfl
  | reg _ _ => exact .inl rfl
  | mem _ _ => exact .inl rfl
  | pc _ => exact .inl rfl
  | sp _ => exact .inl rfl
  | out _ => exact .inl rfl

/-- A host write does not make a terminal engine Running, so `pc` stays inside memory while Running
(spec/10_state.md R15). -/
theorem hostWrite_keeps_pcInside (w : HostWrite) (h : s.run = .running → s.pc.toNat ≤ 255) :
    (hostWrite w s).run = .running → (hostWrite w s).pc.toNat ≤ 255 := by
  intro hr
  obtain hp | hp := hostWrite_pc_cases s w
  · rw [hp]
    apply h
    by_contra hn
    exact hn (hostWrite_keeps_terminal s w hn ▸ hr)
  · exact hp

/-! ### Requests -/

@[simp] theorem serve_reset (image : Vector Byte 256) : serve (.reset image) s = .next (hostReset image s) := rfl
@[simp] theorem serve_step : serve .step s = step s := rfl
@[simp] theorem serve_write (w : HostWrite) : serve (.write w) s = .next (hostWrite w s) := rfl

@[simp] theorem serveAll_nil : serveAll [] s = .next s := rfl

theorem serveAll_cons {q : HostRequest} {t : State} (qs : List HostRequest) (h : serve q s = .next t) :
    serveAll (q :: qs) s = serveAll qs t := by
  rw [serveAll, h]

end Sys2Proof.Machine
end

