-- ==== Sys2Proof/Laws/PerInstr.lean ====
section
/-! SUPPORT. The per-instruction family EncodingShape: what each constructor's encoding looks like. -/

namespace Sys2Proof

/-- The encoding starts with the opcode; a wired instruction is as long as its opcode says and its register operands come first
among its operand bytes; a reserved name is its opcode byte alone (spec/30_encoding.md R50, R52, R55, R59). -/
def Laws.EncodingShape.Statement (i : Instr) : Prop :=
  (encode i).head? = some i.opcode ∧
  (encode i).length = (if i.wired then operandCount i.opcode + 1 else 1) ∧
  i.registerOperands <+: i.operands

variable (a b imm : Byte)

theorem Laws.EncodingShape.hlt : Laws.EncodingShape.Statement .hlt := ⟨rfl, encode_length _, List.prefix_refl _⟩
theorem Laws.EncodingShape.ret : Laws.EncodingShape.Statement .ret := ⟨rfl, encode_length _, List.prefix_refl _⟩

theorem Laws.EncodingShape.push : Laws.EncodingShape.Statement (.push a) := ⟨rfl, encode_length _, List.prefix_refl _⟩
theorem Laws.EncodingShape.pop : Laws.EncodingShape.Statement (.pop a) := ⟨rfl, encode_length _, List.prefix_refl _⟩
theorem Laws.EncodingShape.prn : Laws.EncodingShape.Statement (.prn a) := ⟨rfl, encode_length _, List.prefix_refl _⟩
theorem Laws.EncodingShape.call : Laws.EncodingShape.Statement (.call a) := ⟨rfl, encode_length _, List.prefix_refl _⟩

theorem Laws.EncodingShape.ldi : Laws.EncodingShape.Statement (.ldi a imm) := ⟨rfl, encode_length _, ⟨[imm], rfl⟩⟩

theorem Laws.EncodingShape.add : Laws.EncodingShape.Statement (.add a b) := ⟨rfl, encode_length _, List.prefix_refl _⟩
theorem Laws.EncodingShape.sub : Laws.EncodingShape.Statement (.sub a b) := ⟨rfl, encode_length _, List.prefix_refl _⟩
theorem Laws.EncodingShape.mul : Laws.EncodingShape.Statement (.mul a b) := ⟨rfl, encode_length _, List.prefix_refl _⟩
theorem Laws.EncodingShape.div : Laws.EncodingShape.Statement (.div a b) := ⟨rfl, encode_length _, List.prefix_refl _⟩
theorem Laws.EncodingShape.and : Laws.EncodingShape.Statement (.and a b) := ⟨rfl, encode_length _, List.prefix_refl _⟩

theorem Laws.EncodingShape.cmp : Laws.EncodingShape.Statement .cmp := ⟨rfl, encode_length _, List.prefix_refl _⟩
theorem Laws.EncodingShape.dec : Laws.EncodingShape.Statement .dec := ⟨rfl, encode_length _, List.prefix_refl _⟩
theorem Laws.EncodingShape.inc : Laws.EncodingShape.Statement .inc := ⟨rfl, encode_length _, List.prefix_refl _⟩
theorem Laws.EncodingShape.mod : Laws.EncodingShape.Statement .mod := ⟨rfl, encode_length _, List.prefix_refl _⟩
theorem Laws.EncodingShape.not : Laws.EncodingShape.Statement .not := ⟨rfl, encode_length _, List.prefix_refl _⟩
theorem Laws.EncodingShape.or : Laws.EncodingShape.Statement .or := ⟨rfl, encode_length _, List.prefix_refl _⟩
theorem Laws.EncodingShape.xor : Laws.EncodingShape.Statement .xor := ⟨rfl, encode_length _, List.prefix_refl _⟩

end Sys2Proof
end

