-- ==== Sys2Proof/Tests/Slice0.lean ====
section
/-! SUPPORT. Tests of one step each, with expected results from spec/95_test_vectors.md (V…) or worked by hand from the rule named,
and for each statement with hypotheses a witness that they can be met. -/

namespace Sys2Proof.Tests

open Sys2Proof Sys2Proof.Machine

/-- Reset, with `pc` and the bytes that stand there. -/
def codeAt (pc : Nat) (bytes : List Byte) : State :=
  State.withCode { State.reset with pc := BitVec.ofNat 9 pc } bytes

/-- The outcome is a next state that passes a check. -/
def nextIs (o : Result) (check : State → Bool) : Bool :=
  match o with
  | .next t => check t
  | .fault _ => false
  | .refused _ => false

/-- The outcome is the faulted state with this record (code, at, opcode) and cause, `pc` and `sp` as given. -/
def faults (o : Result) (code atPc : Nat) (op : Byte) (cause : Cause) (sp : Nat) : Bool :=
  nextIs o fun t => t.run == .faulted && t.pc.toNat == atPc && t.sp.toNat == sp && cause.code == code &&
    t.fault == some { cause := cause, atPc := BitVec.ofNat 9 atPc, opcode := op }

/-! ### Decoding: words written out from spec/30_encoding.md R55, R56 -/

theorem test_decode_formatZ :
    decode [0b00000001#8] = .ok (.hlt, []) ∧ decode [0b00010001#8, 0xFF#8] = .ok (.ret, [0xFF#8]) := by decide

theorem test_decode_formatR :
    decode [0b01000101#8, 0b00000011#8] = .ok (.push 3#8, []) ∧ decode [0b01000110#8, 0b00000011#8] = .ok (.pop 3#8, []) ∧
    decode [0b01000111#8, 0b00000111#8] = .ok (.prn 7#8, []) ∧ decode [0b01010000#8, 0b00000001#8] = .ok (.call 1#8, []) := by
  decide

theorem test_decode_formatRI :
    decode [0b10000010#8, 0b00000000#8, 0b00000101#8] = .ok (.ldi 0#8 5#8, []) := by decide

theorem test_decode_formatRR :
    decode [0b10100000#8, 0b00000010#8, 0b00000101#8] = .ok (.add 2#8 5#8, []) ∧
    decode [0b10100001#8, 0b00000010#8, 0b00000101#8] = .ok (.sub 2#8 5#8, []) ∧
    decode [0b10100010#8, 0b00000010#8, 0b00000101#8] = .ok (.mul 2#8 5#8, []) ∧
    decode [0b10100011#8, 0b00000010#8, 0b00000101#8] = .ok (.div 2#8 5#8, []) ∧
    decode [0b10101000#8, 0b00000010#8, 0b00000101#8] = .ok (.and 2#8 5#8, []) := by decide

/-- R59; the values are the spec's from general knowledge. -/
theorem test_decode_reserved :
    decode [0b10100111#8] = .ok (.cmp, []) ∧ decode [0b01100110#8] = .ok (.dec, []) ∧
    decode [0b01100101#8] = .ok (.inc, []) ∧ decode [0b10100100#8] = .ok (.mod, []) ∧
    decode [0b01101001#8] = .ok (.not, []) ∧ decode [0b10101010#8] = .ok (.or, []) ∧
    decode [0b10101011#8] = .ok (.xor, []) := by decide

theorem test_decode_refuses_by_name :
    decode [] = .error .noByte ∧ decode [0x00#8] = .error (.unsupported 0x00#8) ∧
    decode [0x82#8, 0x01#8] = .error (.operandMissing 0x82#8) := by decide

/-- The second byte of the table's numbering is bits 15..8, and an operand above `nbits` is zero. -/
theorem test_decodeTableWord :
    decodeTableWord 24 0x050082 = some (.ldi 0#8 5#8) ∧ decodeTableWord 16 0xFF0345 = some (.push 3#8) ∧
    decodeTableWord 8 0xA7 = some .cmp ∧ decodeTableWord 8 0x00 = none := by decide

theorem test_encode_call : encode (.call 1#8) = [0x50#8, 0x01#8] := by decide

/-! ### WellFormed: an ill-formed term for each check -/

theorem test_wellFormed_accepts : (Instr.ldi 7#8 0xFF#8).wellFormed = true ∧ Instr.hlt.wellFormed = true := by decide
theorem test_wellFormed_refuses_operandA : (Instr.push 8#8).wellFormed = false ∧ (Instr.ldi 8#8 0#8).wellFormed = false := by
  decide
theorem test_wellFormed_refuses_operandB : (Instr.add 0#8 8#8).wellFormed = false := by decide
theorem test_wellFormed_refuses_reserved : Instr.cmp.wellFormed = false := by decide

/-! ### One step -/

/-- V2: register 7 is not the stack pointer. -/
theorem test_ldi_V2 : nextIs (step (codeAt 0 [0x82#8, 0x07#8, 0xFF#8]))
    (fun t => t.reg 7 == 255#8 && t.pc == 3#9 && t.sp == 0xF4#8) = true := by decide

/-- V5: the end of memory. -/
theorem test_ldi_V5 : nextIs (step (codeAt 253 [0x82#8, 0x01#8, 0x77#8]))
    (fun t => t.reg 1 == 0x77#8 && t.pc == 256#9 && t.run == .endOfMemory && t.fault == none) = true := by decide

/-- V6: a needed operand at 256. -/
theorem test_ldi_V6 : faults (step (codeAt 254 [0x82#8, 0x01#8])) 2 254 0x82#8 (.memoryOutOfRange .operandFetch 256) 0xF4 = true := by
  decide

/-- V8. -/
theorem test_prn_V8 : nextIs (step ((codeAt 0 [0x47#8, 0x02#8]).setReg 2 200#8))
    (fun t => t.out == [200#8] && t.pc == 2#9 && t.reg 2 == 200#8) = true := by decide

/-- V10. -/
theorem test_prn_V10 : faults (step (codeAt 0 [0x47#8, 0x09#8])) 3 0 0x47#8 (.registerIndexOutOfRange .operandA 9#8) 0xF4 = true := by
  decide

/-- V14: halts in place at 255. -/
theorem test_hlt_V14 : nextIs (step (codeAt 255 [0x01#8])) (fun t => t.run == .halted && t.pc == 255#9 && t.fault == none) = true := by
  decide

/-- V19: a PUSH that overwrites its own opcode still executes as fetched. -/
theorem test_push_V19 : nextIs (step { (codeAt 0x10 [0x45#8, 0x01#8]).setReg 1 0x46#8 with sp := 0x0F#8 })
    (fun t => t.sp == 0x10#8 && t.readByte 0x10 == 0x46#8 && t.pc == 0x12#9 && t.run == .running) = true := by decide

/-- V17. -/
theorem test_push_V17 : faults (step { codeAt 0 [0x45#8, 0x00#8] with sp := 0xFF#8 }) 2 0 0x45#8
    (.memoryOutOfRange .stackPush 256) 0xFF = true := by decide

/-- V21: a POP at the reset `sp`. -/
theorem test_pop_V21 : nextIs (step ((codeAt 0 [0x46#8, 0x01#8]).writeByte 0xF4#8 0x99#8))
    (fun t => t.reg 1 == 0x99#8 && t.sp == 0xF3#8 && t.pc == 2#9 && t.readByte 0xF4 == 0x99#8) = true := by decide

/-- V23. -/
theorem test_pop_V23 : faults (step { codeAt 4 [0x46#8, 0x02#8] with sp := 0#8 }) 2 4 0x46#8
    (.memoryOutOfRange .stackPop (-1)) 0 = true := by decide

/-- V32: the largest return address. -/
theorem test_call_V32 : nextIs (step ((codeAt 253 [0x50#8, 0x01#8]).setReg 1 9#8))
    (fun t => t.sp == 0xF5#8 && t.readByte 0xF5 == 0xFF#8 && t.pc == 9#9 && t.run == .running) = true := by decide

/-- V33. -/
theorem test_call_V33 : faults (step ((codeAt 254 [0x50#8, 0x01#8]).setReg 1 9#8)) 2 254 0x50#8
    (.memoryOutOfRange .returnAddress 256) 0xF4 = true := by decide

/-- V39: a RET at the last address does not end the run. -/
theorem test_ret_V39 : nextIs (step ({ codeAt 255 [0x11#8] with sp := 0xF5#8 }.writeByte 0xF5#8 0x20#8))
    (fun t => t.pc == 0x20#9 && t.sp == 0xF4#8 && t.run == .running) = true := by decide

/-- V42. -/
theorem test_ret_V42 : faults (step { codeAt 0 [0x11#8] with sp := 0#8 }) 2 0 0x11#8 (.memoryOutOfRange .stackPop (-1)) 0 = true := by
  decide

/-- Two registers with the sources, and an ALU instruction on them. -/
def alu (op u v : Byte) : State := ((codeAt 0 [op, 0x00#8, 0x01#8]).setReg 0 u).setReg 1 v

/-- V52. -/
theorem test_add_V52 : nextIs (step (alu 0xA0#8 200#8 100#8)) (fun t => t.reg 0 == 44#8 && t.reg 1 == 100#8 && t.pc == 3#9) = true := by
  decide

/-- V82: index A is checked first. -/
theorem test_add_V82 : faults (step (codeAt 0 [0xA0#8, 0x09#8, 0x08#8])) 3 0 0xA0#8
    (.registerIndexOutOfRange .operandA 9#8) 0xF4 = true := by decide

/-- V51. -/
theorem test_sub_V51 : nextIs (step (alu 0xA1#8 3#8 5#8)) (fun t => t.reg 0 == 254#8 && t.reg 1 == 5#8) = true := by decide

/-- V60. -/
theorem test_mul_V60 : nextIs (step (alu 0xA2#8 200#8 3#8)) (fun t => t.reg 0 == 88#8) = true := by decide

/-- V60. -/
theorem test_div_V60 : nextIs (step (alu 0xA3#8 200#8 3#8)) (fun t => t.reg 0 == 66#8 && t.reg 1 == 3#8) = true := by decide

/-- V55. -/
theorem test_div_V55 : faults (step (alu 0xA3#8 0#8 0#8)) 4 0 0xA3#8 (.divideByZero 0 1) 0xF4 = true := by decide

/-- V65. -/
theorem test_and_V65 : nextIs (step (alu 0xA8#8 0xF0#8 0x3C#8)) (fun t => t.reg 0 == 0x30#8 && t.reg 1 == 0x3C#8) = true := by decide

/-- V113 to V119: the seven reserved names. -/
theorem test_reserved_V113 : ([0xA4#8, 0xA7#8, 0x65#8, 0x66#8, 0x69#8, 0xAA#8, 0xAB#8].all fun op =>
    faults (step (codeAt 0 [op])) 1 0 op .unsupportedInstruction 0xF4) = true := by decide

/-- V126 and V127. -/
theorem test_unsupported_V126 : faults (step (codeAt 255 [0xC0#8])) 1 255 0xC0#8 .unsupportedInstruction 0xF4 = true ∧
    faults (step (codeAt 254 [0x00#8])) 1 254 0x00#8 .unsupportedInstruction 0xF4 = true := by decide

/-- V141: a terminal state does nothing. -/
theorem test_terminal_V141 : nextIs (step { codeAt 256 [] with run := .endOfMemory })
    (fun t => t == { codeAt 256 [] with run := .endOfMemory }) = true := by decide

/-- The instruction placed at `pc` is the one the next step runs: `LDI r0, 5` (R90, example). -/
theorem test_withFetchWord : nextIs (step (State.reset.withFetchWord 24 0x050082)) (fun t => t.reg 0 == 5#8 && t.pc == 3#9) = true := by
  decide

/-! ### Witnesses: the hypotheses of each statement can be met, each clause at a boundary -/

theorem wit_OpcodeTellsLengthAndPcFlag : (Instr.call 8#8).wired = true := by decide

theorem wit_StepRunsDecodedInstruction :
    (codeAt 255 [0x11#8]).run = .running ∧ decode (codeWindow (codeAt 255 [0x11#8])) = .ok (.ret, []) := by decide

theorem wit_OperandFetchReadsWhatIsThereOrFaults :
    ((codeAt 253 [0xA0#8]).run = .running ∧ (codeAt 253 [0xA0#8]).pc.toNat ≤ 255 ∧
      isWired ((codeAt 253 [0xA0#8]).readByte 253) = true ∧ 253 + operandCount ((codeAt 253 [0xA0#8]).readByte 253) ≤ 255) ∧
    ((codeAt 254 [0x82#8]).run = .running ∧ isWired ((codeAt 254 [0x82#8]).readByte 254) = true ∧
      255 < 254 + operandCount ((codeAt 254 [0x82#8]).readByte 254)) := by decide

theorem wit_UnwiredByteRaisesUnsupportedInstruction :
    ((codeAt 255 [0xC0#8]).run = .running ∧ (codeAt 255 [0xC0#8]).pc.toNat ≤ 255 ∧
      (codeAt 255 [0xC0#8]).readByte 255 ∉
        [0x01#8, 0x11#8, 0x45#8, 0x46#8, 0x47#8, 0x50#8, 0x82#8, 0xA0#8, 0xA1#8, 0xA2#8, 0xA3#8, 0xA8#8]) ∧
    (Instr.prn 8#8).wired = true ∧ (codeAt 0 [0x47#8, 8#8]).fault = none ∧
    faults (exec (.prn 8#8) (codeAt 0 [0x47#8, 8#8])) 3 0 0x47#8 (.registerIndexOutOfRange .operandA 8#8) 0xF4 = true := by decide

theorem wit_ReservedNamesRaiseUnsupportedInstruction : (codeAt 255 [0xAB#8]).pc.toNat ≤ 255 := by decide

theorem wit_TerminalStatesAreAbsorbing : { codeAt 256 [] with run := .endOfMemory }.run ≠ .running := by decide

theorem wit_RunningEngineAlwaysHasNextCycle : (codeAt 255 [0x01#8]).run = .running ∧ (codeAt 255 [0x01#8]).pc.toNat ≤ 255 := by
  decide

/-- A state at the end of memory that a LDI reached, and one that is Faulted, both meet the invariant. -/
theorem wit_RunsNeverGetStuck : { codeAt 256 [] with run := .endOfMemory }.Inv :=
  ⟨by decide, by decide, by decide, by decide, fun _ h => nomatch h⟩

theorem wit_StepKeepsInvariant :
    (codeAt 253 [0x82#8, 0x01#8, 0x77#8]).Inv ∧
    nextIs (step (codeAt 253 [0x82#8, 0x01#8, 0x77#8])) (fun t => t.run == .endOfMemory) = true :=
  ⟨⟨by decide, by decide, by decide, by decide, fun _ h => nomatch h⟩, by decide⟩

theorem wit_FaultEntryIsPrecise :
    (codeAt 255 [0x82#8]).run = .running ∧ nextIs (step (codeAt 255 [0x82#8])) (fun t => t.run == .faulted) = true := by decide

theorem wit_FirstFailingCheckRaisesItsFault :
    (codeAt 0 [0xA3#8, 9#8, 1#8]).run = .running ∧
    firstFailingCheck (codeAt 0 [0xA3#8, 9#8, 1#8]) = some (.registerIndexOutOfRange .operandA 9#8) ∧
    firstFailingCheck { codeAt 254 [0x50#8, 1#8] with sp := 0xFF#8 } = some (.memoryOutOfRange .stackPush 256) ∧
    firstFailingCheck (codeAt 255 [0xC0#8]) = some .unsupportedInstruction ∧
    firstFailingCheck (codeAt 253 [0xA0#8, 0#8, 7#8]) = none := by decide

theorem wit_MemoryOutOfRangeComesFromFourSites :
    faults (step (codeAt 255 [0x45#8])) 2 255 0x45#8 (.memoryOutOfRange .operandFetch 256) 0xF4 = true ∧
    faults (step { codeAt 0 [0x50#8, 0#8] with sp := 0xFF#8 }) 2 0 0x50#8 (.memoryOutOfRange .stackPush 256) 0xFF = true ∧
    faults (step (codeAt 254 [0x50#8, 0#8])) 2 254 0x50#8 (.memoryOutOfRange .returnAddress 256) 0xF4 = true ∧
    faults (step { codeAt 0 [0x46#8, 0#8] with sp := 0#8 }) 2 0 0x46#8 (.memoryOutOfRange .stackPop (-1)) 0 = true := by decide

theorem wit_LdiLoadsItsImmediate :
    (Ready (codeAt 253 [0x82#8, 7#8, 0xFF#8]) 2 ∧ Names 7#8 7) ∧ 7 < (8#8 : Byte).toNat ∧
    OpcodeAt (codeAt 254 [0x82#8]) 0x82#8 ∧ 254 ≤ (codeAt 254 [0x82#8]).pc.toNat ∧
    CodeAt (codeAt 253 [0x82#8, 7#8, 0xFF#8]) [0x82#8, 7#8, 0xFF#8] :=
  ⟨⟨⟨by decide, by decide⟩, rfl⟩, by decide, ⟨by decide, by decide⟩, by decide, ⟨by decide, by decide⟩⟩

theorem wit_PrnEmitsItsRegister :
    (Ready (codeAt 254 [0x47#8, 0#8]) 1 ∧ Names 0#8 0) ∧ 7 < (8#8 : Byte).toNat ∧
    OpcodeAt (codeAt 255 [0x47#8]) 0x47#8 ∧ (codeAt 255 [0x47#8]).pc.toNat = 255 ∧
    CodeAt (codeAt 254 [0x47#8, 0#8]) [0x47#8, 0#8] :=
  ⟨⟨⟨by decide, by decide⟩, rfl⟩, by decide, ⟨by decide, by decide⟩, by decide, ⟨by decide, by decide⟩⟩

theorem wit_HltHaltsInPlace : Ready (codeAt 255 [0x01#8]) 0 ∧ CodeAt (codeAt 255 [0x01#8]) [0x01#8] :=
  ⟨⟨by decide, by decide⟩, by decide, by decide⟩

theorem wit_PushIncrementsThenWrites :
    (Ready { codeAt 254 [0x45#8, 7#8] with sp := 0xFE#8 } 1 ∧ Names 7#8 7 ∧
      { codeAt 254 [0x45#8, 7#8] with sp := 0xFE#8 }.sp.toNat ≤ 254) ∧
    (7 < (8#8 : Byte).toNat) ∧ { codeAt 0 [0x45#8, 7#8] with sp := 0xFF#8 }.sp.toNat = 255 ∧
    (OpcodeAt (codeAt 255 [0x45#8]) 0x45#8 ∧ (codeAt 255 [0x45#8]).pc.toNat = 255) ∧
    CodeAt (codeAt 254 [0x45#8, 7#8]) [0x45#8, 7#8] :=
  ⟨⟨⟨by decide, by decide⟩, rfl, by decide⟩, by decide, by decide, ⟨⟨by decide, by decide⟩, by decide⟩, by decide, by decide⟩

theorem wit_PopReadsThenDecrements :
    (Ready { codeAt 254 [0x46#8, 7#8] with sp := 1#8 } 1 ∧ Names 7#8 7 ∧
      1 ≤ { codeAt 254 [0x46#8, 7#8] with sp := 1#8 }.sp.toNat) ∧
    (7 < (8#8 : Byte).toNat) ∧ { codeAt 0 [0x46#8, 7#8] with sp := 0#8 }.sp.toNat = 0 ∧
    (OpcodeAt (codeAt 255 [0x46#8]) 0x46#8 ∧ (codeAt 255 [0x46#8]).pc.toNat = 255) ∧
    CodeAt (codeAt 254 [0x46#8, 7#8]) [0x46#8, 7#8] :=
  ⟨⟨⟨by decide, by decide⟩, rfl, by decide⟩, by decide, by decide, ⟨⟨by decide, by decide⟩, by decide⟩, by decide, by decide⟩

theorem wit_PushThenPopRestores :
    (codeAt 252 [0x45#8, 3#8, 0x46#8, 4#8]).run = .running ∧
    CodeAt (codeAt 252 [0x45#8, 3#8, 0x46#8, 4#8]) [0x45#8, 3#8, 0x46#8, 4#8] ∧ Names 3#8 3 ∧ Names 4#8 4 ∧
    (codeAt 252 [0x45#8, 3#8, 0x46#8, 4#8]).sp.toNat ≤ 254 ∧
    (codeAt 252 [0x45#8, 3#8, 0x46#8, 4#8]).sp.toNat + 1 ≠ 254 ∧ (codeAt 252 [0x45#8, 3#8, 0x46#8, 4#8]).sp.toNat + 1 ≠ 255 :=
  ⟨by decide, ⟨by decide, by decide⟩, rfl, rfl, by decide, by decide, by decide⟩

theorem wit_CallPushesReturnAddressAndJumps :
    (Ready { codeAt 253 [0x50#8, 1#8] with sp := 0xFE#8 } 1 ∧ Names 1#8 1 ∧
      { codeAt 253 [0x50#8, 1#8] with sp := 0xFE#8 }.sp.toNat ≤ 254 ∧ (codeAt 253 [0x50#8, 1#8]).pc.toNat ≤ 253) ∧
    (7 < (8#8 : Byte).toNat) ∧ { codeAt 254 [0x50#8, 1#8] with sp := 0xFF#8 }.sp.toNat = 255 ∧
    (Ready (codeAt 254 [0x50#8, 1#8]) 1 ∧ (codeAt 254 [0x50#8, 1#8]).sp.toNat ≤ 254 ∧
      (codeAt 254 [0x50#8, 1#8]).pc.toNat = 254) ∧
    (OpcodeAt (codeAt 255 [0x50#8]) 0x50#8 ∧ (codeAt 255 [0x50#8]).pc.toNat = 255) ∧
    CodeAt (codeAt 254 [0x50#8, 1#8]) [0x50#8, 1#8] :=
  ⟨⟨⟨by decide, by decide⟩, rfl, by decide, by decide⟩, by decide, by decide, ⟨⟨by decide, by decide⟩, by decide, by decide⟩,
    ⟨⟨by decide, by decide⟩, by decide⟩, by decide, by decide⟩

theorem wit_RetPopsAndJumps :
    Ready (codeAt 255 [0x11#8]) 0 ∧ 1 ≤ { codeAt 255 [0x11#8] with sp := 1#8 }.sp.toNat ∧
    { codeAt 255 [0x11#8] with sp := 0#8 }.sp.toNat = 0 ∧ CodeAt (codeAt 255 [0x11#8]) [0x11#8] :=
  ⟨⟨by decide, by decide⟩, by decide, by decide, by decide, by decide⟩

/-- V40: the target 9 holds a RET. -/
theorem wit_CallThenRetRoundTrip :
    CodeAt ((codeAt 6 [0x50#8, 1#8, 0x01#8, 0x11#8]).setReg 1 9#8) [0x50#8, 1#8] ∧ Names 1#8 1 ∧
    nextIs (step ((codeAt 6 [0x50#8, 1#8, 0x01#8, 0x11#8]).setReg 1 9#8)) (fun t => t.readByte 9 == 0x11#8) = true :=
  ⟨⟨by decide, by decide⟩, rfl, by decide⟩

/-- The clauses of the ALU rules: V86 lies at 253, the operands 7 and 8 are the boundary of a legal index. -/
theorem wit_AluRule : ∀ op ∈ [0xA0#8, 0xA1#8, 0xA2#8, 0xA3#8, 0xA8#8],
    (Ready (codeAt 253 [op, 7#8, 0#8]) 2 ∧ Names 7#8 7 ∧ Names 0#8 0) ∧ 7 < (8#8 : Byte).toNat ∧ (7#8 : Byte).toNat ≤ 7 ∧
    (OpcodeAt (codeAt 254 [op]) op ∧ 254 ≤ (codeAt 254 [op]).pc.toNat) ∧
    CodeAt (codeAt 253 [op, 7#8, 0#8]) [op, 7#8, 0#8] := by
  unfold Ready Names OpcodeAt CodeAt
  decide

theorem wit_DivIsUnsignedQuotientOrFault :
    (alu 0xA3#8 255#8 255#8).reg 1 ≠ 0#8 ∧ (alu 0xA3#8 0#8 0#8).reg 1 = 0#8 := by decide

theorem wit_SameRegisterAsBothOperands :
    (Ready ((codeAt 253 [0xA3#8, 2#8, 2#8]).setReg 2 1#8) 2 ∧ Names 2#8 2) ∧
    ((codeAt 253 [0xA3#8, 2#8, 2#8]).setReg 2 1#8).reg 2 ≠ 0#8 ∧ (codeAt 253 [0xA3#8, 2#8, 2#8]).reg 2 = 0#8 :=
  ⟨⟨⟨by decide, by decide⟩, rfl⟩, by decide, by decide⟩

theorem wit_OnlyPrnAppendsToOutput :
    nextIs (step ((codeAt 254 [0x47#8, 0#8]).setReg 0 7#8)) (fun t => t.out == [7#8]) = true ∧
    nextIs (runFor 2 (codeAt 0 [0x47#8, 0#8, 0x47#8, 1#8])) (fun t => t.out == [0#8, 0#8]) = true := by decide

theorem wit_NothingReadsTheOutput :
    nextIs (step { codeAt 0 [0x47#8, 0#8] with out := [1#8] }) (fun t => t.out == [1#8, 0#8]) = true := by decide

theorem wit_OnlyPushAndCallStore :
    nextIs (step { (codeAt 0 [0x45#8, 0#8]).setReg 0 42#8 with sp := 0xFE#8 }) (fun t => t.readByte 0xFF == 42#8) = true ∧
    nextIs (step (codeAt 0 [0x46#8, 0#8])) (fun t => t.run == .running) = true := by decide

theorem wit_OnlyNamedRegisterIsWritten :
    nextIs (step (codeAt 0 [0x82#8, 7#8, 1#8])) (fun t => t.reg 7 != (codeAt 0 [0x82#8, 7#8, 1#8]).reg 7) = true := by decide

theorem wit_StackPointerMovesByOne :
    nextIs (step (codeAt 0 [0x01#8])) (fun t => t.sp == 0xF4#8) = true ∧
    nextIs (step { codeAt 0 [0x45#8, 0#8] with sp := 0xFE#8 }) (fun t => t.sp == 0xFF#8) = true ∧
    nextIs (step { codeAt 0 [0x11#8] with sp := 1#8 }) (fun t => t.sp == 0#8) = true := by decide

theorem wit_PcIsUpdatedByItsOpcode :
    nextIs (step (codeAt 255 [0x45#8])) (fun t => t.run == .faulted) = true ∧
    nextIs (step (codeAt 255 [0x01#8])) (fun t => t.run != .faulted) = true ∧
    nextIs (step (codeAt 253 [0x50#8, 7#8])) (fun t => t.run != .faulted) = true ∧
    nextIs (step (codeAt 255 [0x11#8])) (fun t => t.run != .faulted) = true ∧
    nextIs (step (codeAt 254 [0x47#8, 7#8])) (fun t => t.run != .faulted) = true := by decide

theorem wit_EndOfMemoryIsTheSentinel :
    nextIs (step (codeAt 254 [0x47#8, 0#8])) (fun t => t.run == .endOfMemory) = true ∧
    nextIs (step (codeAt 253 [0xA0#8, 0#8, 0#8])) (fun t => t.run == .endOfMemory) = true := by decide

theorem wit_TerminalRunStatesAreEnteredAsListed :
    (codeAt 255 [0x01#8]).run = .running ∧ (codeAt 255 [0x01#8]).fault = none ∧
    nextIs (step (codeAt 255 [0x01#8])) (fun t => t.run == .halted) = true ∧
    nextIs (step (codeAt 255 [0x00#8])) (fun t => t.run == .faulted) = true := by decide

/-- Two states with different registers and memory elsewhere, and the same three bytes at 253. -/
theorem wit_FetchSeesOnlyTheBytesAtPc :
    (codeAt 253 [0x82#8, 1#8, 2#8]).pc = (((codeAt 253 [0x82#8, 1#8, 2#8]).setReg 0 9#8).writeByte 0#8 1#8).pc ∧
    ∀ k < 3, (codeAt 253 [0x82#8, 1#8, 2#8]).readByte (253 + k) =
      (((codeAt 253 [0x82#8, 1#8, 2#8]).setReg 0 9#8).writeByte 0#8 1#8).readByte (253 + k) := by decide

theorem wit_BoundsCheckNeverWraps :
    checkAddr .stackPush 255 = .ok 255#8 ∧ checkAddr .stackPush 256 = .error (.memoryOutOfRange .stackPush 256) ∧
    checkAddr .stackPop 0 = .ok 0#8 ∧ checkAddr .stackPop (-1) = .error (.memoryOutOfRange .stackPop (-1)) :=
  ⟨rfl, rfl, rfl, rfl⟩

theorem wit_CanonicalMemoriesAreEqualData : Memory.wf [(0, 1#8), (255, 2#8)] = true := by decide

theorem wit_HostWriteKeepsInvariant : (codeAt 255 [0x01#8]).Inv ∧ (codeAt 255 [0x01#8]).run = .running :=
  ⟨⟨by decide, by decide, by decide, by decide, fun _ h => nomatch h⟩, by decide⟩

/-- Both sides of the equivalence, at the boundary of `pc`: a record put by hand into a Running engine. -/
theorem wit_HostWritesMakeExactlyTheseStates :
    State.reset.mem.wf = true ∧
    hostWrites [.pc 255#8, .run .faulted, .fault { cause := .unsupportedInstruction, atPc := 255#9, opcode := 0#8 }] State.reset =
      { State.reset with pc := 255#9, run := .faulted,
                         fault := some { cause := .unsupportedInstruction, atPc := 255#9, opcode := 0#8 } } ∧
    (255#9 : Pc).toNat ≤ 255 ∧ State.reset.run = .running ∧ State.reset.fault = none := by decide

/-- D18: the host cannot make a Halted engine Running, and a step then does nothing; it can stop a Running one. -/
theorem test_hostWrite_run :
    nextIs (serveAll [.write (.run .running), .step] { codeAt 0 [0x47#8, 0#8] with run := .halted })
      (fun t => t == { codeAt 0 [0x47#8, 0#8] with run := .halted }) = true ∧
    nextIs (serveAll [.write (.run .halted), .step] (codeAt 0 [0x47#8, 0#8]))
      (fun t => t == { codeAt 0 [0x47#8, 0#8] with run := .halted }) = true := by decide

theorem wit_TerminalStatesAreLeftOnlyByReset :
    { codeAt 256 [] with run := .endOfMemory }.run ≠ .running ∧
    ∀ image, HostRequest.reset image ∉ [HostRequest.step, .write (.run .running), .write (.pc 0#8)] :=
  ⟨by decide, by simp⟩

theorem wit_HostRequestsNeverGetStuck :
    ((codeAt 255 [0x47#8]).run = .running → (codeAt 255 [0x47#8]).pc.toNat ≤ 255) ∧
    ({ codeAt 256 [] with run := .endOfMemory }.run = .running →
      { codeAt 256 [] with run := .endOfMemory }.pc.toNat ≤ 255) := by decide

theorem wit_WellFormedInstructionsComplete :
    (Instr.div 7#8 0#8).wellFormed = true ∧ ((codeAt 253 [0xA3#8, 7#8, 0#8]).setReg 0 1#8).pc.toNat + (encode (.div 7#8 0#8)).length ≤ 256 ∧
    ((codeAt 253 [0xA3#8, 7#8, 0#8]).setReg 0 1#8).reg 0 ≠ 0#8 := by decide

end Sys2Proof.Tests
end

namespace Sys2Proof.Machine

/-! ### The fetched instruction and its opcode byte -/

/-- The wired opcodes, written out as `firstFailingCheck` has them. -/
theorem isWired_iff {op : Byte} : isWired op = true ↔
    op ∈ [0x01#8, 0x11#8, 0x45#8, 0x46#8, 0x47#8, 0x50#8, 0x82#8, 0xA0#8, 0xA1#8, 0xA2#8, 0xA3#8, 0xA8#8] :=
  List.contains_iff_mem

/-- A wired instruction that stands at `pc` has the length its opcode byte counts. -/
theorem encode_length_of_codeAt {s : State} {i : Instr} (h : CodeAt s (encode i))
    (hw : isWired (s.readByte s.pc.toNat) = true) :
    (encode i).length = operandCount (s.readByte s.pc.toNat) + 1 := by
  rw [encode_length, wired_of_codeAt h, if_pos hw, (opcodeAt_of_codeAt h).2]

/-- The operands of a wired instruction that stands at `pc` are all inside memory (spec/40_cycle.md R74). -/
theorem operands_inside_of_codeAt {s : State} {i : Instr} (h : CodeAt s (encode i))
    (hw : isWired (s.readByte s.pc.toNat) = true) :
    s.pc.toNat + operandCount (s.readByte s.pc.toNat) ≤ 255 := by
  have hl := h.1
  rw [encode_length_of_codeAt h hw] at hl
  omega

/-- Settles O5: the cases of a cycle's fetch, told apart by where the last operand byte lies. -/
theorem operandFetchReadsWhatIsThereOrFaults : Obligations.OperandFetchReadsWhatIsThereOrFaults := by
  intro s hr hp hw
  obtain ⟨i, hc, hs⟩ | ⟨-, hn, hs⟩ | ⟨hu, -⟩ := step_fetch_cases hr hp
  · refine ⟨fun _ => ⟨i, (wired_of_codeAt hc).trans hw, encode_length_of_codeAt hc hw, hc, hs⟩, fun hn => ?_⟩
    have := operands_inside_of_codeAt hc hw
    omega
  · exact ⟨fun _ => by omega, fun _ => hs ▸ raise_raises _ hp⟩
  · simp [hu] at hw

/-! ### The order of checks of R79 against the machine's own cases -/

theorem Names.le_seven {b : Byte} {i : RegIndex} (h : Names b i) : b.toNat ≤ 7 := by
  have := i.isLt
  unfold Names at h
  omega

/-- The index `firstFailingCheck` computes from an operand byte is the register that byte names. -/
theorem Names.finOfNat_eq {b : Byte} {i : RegIndex} (h : Names b i) : Fin.ofNat 8 b.toNat = i := by
  have := h.le_seven
  exact Fin.ext ((Nat.mod_eq_of_lt (by omega)).trans h)

theorem firstFailingCheck_of_unwired {s : State} (h : isWired (s.readByte s.pc.toNat) = false) :
    firstFailingCheck s = some .unsupportedInstruction :=
  if_pos fun hm => by simp [isWired_iff.mpr hm] at h

theorem firstFailingCheck_of_operandMissing {s : State} (hw : isWired (s.readByte s.pc.toNat) = true)
    (hn : 255 < s.pc.toNat + operandCount (s.readByte s.pc.toNat)) :
    firstFailingCheck s = some (.memoryOutOfRange .operandFetch 256) :=
  (if_neg (not_not_intro (isWired_iff.mp hw))).trans (if_pos hn)

/-- An instruction with a register operand: operand A is its first operand byte, and it is not HLT or RET. -/
theorem registerOperands_cons {i : Instr} {a : Byte} {more : List Byte} (h : i.registerOperands = a :: more) :
    (∃ rest, i.operands = a :: rest) ∧ i.wired = true ∧ i.opcode ∉ [0x01#8, 0x11#8] := by
  cases i <;> simp_all [Instr.registerOperands, Instr.operands, Instr.wired, Instr.opcode]

/-- Two register operands are an ALU instruction's, and are all its operand bytes. -/
theorem registerOperands_pair {i : Instr} {a b : Byte} (h : i.registerOperands = [a, b]) :
    i.operands = [a, b] ∧ i.opcode ∈ [0xA0#8, 0xA1#8, 0xA2#8, 0xA3#8, 0xA8#8] := by
  cases i <;> simp_all [Instr.registerOperands, Instr.operands, Instr.opcode]

theorem firstFailingCheck_of_indexA {s : State} {i : Instr} {a : Byte} {more : List Byte} (hc : CodeAt s (encode i))
    (hi : i.registerOperands = a :: more) (ha : 8 ≤ a.toNat) :
    firstFailingCheck s = some (.registerIndexOutOfRange .operandA a) := by
  obtain ⟨⟨rest, ho⟩, hw, hop⟩ := registerOperands_cons hi
  rw [wired_of_codeAt hc] at hw
  rw [← (opcodeAt_of_codeAt hc).2] at hop
  have hin := operands_inside_of_codeAt hc hw
  have h1 := operandA_of_codeAt hc ho
  unfold firstFailingCheck
  rw [if_neg (not_not_intro (isWired_iff.mp hw)), if_neg (by omega), h1, if_pos ⟨hop, by omega⟩]

/-- The checks of the five ALU instructions up to DIV's, which the other four do not have. -/
theorem firstFailingCheck_alu {s : State} {op a b : Byte} (hop : op ∈ [0xA0#8, 0xA1#8, 0xA2#8, 0xA3#8, 0xA8#8])
    (hc : CodeAt s [op, a, b]) (ha : a.toNat ≤ 7) :
    firstFailingCheck s =
      if 7 < b.toNat then some (.registerIndexOutOfRange .operandB b)
      else if op = 0xA3#8 ∧ s.reg (Fin.ofNat 8 b.toNat) = 0#8 then
        some (.divideByZero (Fin.ofNat 8 a.toNat) (Fin.ofNat 8 b.toNat))
      else none := by
  obtain ⟨hp, h0, h1, h2⟩ := codeAt_three hc
  have hA : ¬ 7 < a.toNat := by omega
  have hP : ¬ 255 < s.pc.toNat + 2 := by omega
  simp only [List.mem_cons, List.not_mem_nil, or_false] at hop
  rcases hop with rfl | rfl | rfl | rfl | rfl <;> simp [firstFailingCheck, h0, h1, h2, hA, hP, operandCount]

theorem firstFailingCheck_ret {s : State} (hc : CodeAt s [0x11#8]) :
    firstFailingCheck s = if s.sp.toNat = 0 then some (.memoryOutOfRange .stackPop (-1)) else none := by
  obtain ⟨hp, h0⟩ := codeAt_one hc
  simp [firstFailingCheck, h0, operandCount, hp]

theorem firstFailingCheck_push {s : State} {a : Byte} (hc : CodeAt s [0x45#8, a]) (ha : a.toNat ≤ 7) :
    firstFailingCheck s = if s.sp.toNat = 255 then some (.memoryOutOfRange .stackPush 256) else none := by
  obtain ⟨hp, h0, h1⟩ := codeAt_two hc
  have hA : ¬ 7 < a.toNat := by omega
  have hP : ¬ 255 < s.pc.toNat + 1 := by omega
  simp [firstFailingCheck, h0, h1, operandCount, hA, hP]

theorem firstFailingCheck_pop {s : State} {a : Byte} (hc : CodeAt s [0x46#8, a]) (ha : a.toNat ≤ 7) :
    firstFailingCheck s = if s.sp.toNat = 0 then some (.memoryOutOfRange .stackPop (-1)) else none := by
  obtain ⟨hp, h0, h1⟩ := codeAt_two hc
  have hA : ¬ 7 < a.toNat := by omega
  have hP : ¬ 255 < s.pc.toNat + 1 := by omega
  simp [firstFailingCheck, h0, h1, operandCount, hA, hP]

theorem firstFailingCheck_call {s : State} {a : Byte} (hc : CodeAt s [0x50#8, a]) (ha : a.toNat ≤ 7) :
    firstFailingCheck s =
      if s.sp.toNat = 255 then some (.memoryOutOfRange .stackPush 256)
      else if s.pc.toNat = 254 then some (.memoryOutOfRange .returnAddress 256) else none := by
  obtain ⟨hp, h0, h1⟩ := codeAt_two hc
  have hA : ¬ 7 < a.toNat := by omega
  have hP : ¬ 255 < s.pc.toNat + 1 := by omega
  simp [firstFailingCheck, h0, h1, operandCount, hA, hP]

/-- The fault an instruction at `pc` raises is the one of its first failing check. -/
theorem FaultsWith.firstFailingCheck_eq {i : Instr} {s : State} {c : Cause} (hf : FaultsWith i s c)
    (hc : CodeAt s (encode i)) : firstFailingCheck s = some c := by
  cases hf with
  | reserved _ _ h => exact firstFailingCheck_of_unwired ((wired_of_codeAt hc).symm.trans h)
  | indexA _ _ a more hi h => exact firstFailingCheck_of_indexA hc hi h
  | indexB _ _ a b hi ha h =>
    obtain ⟨ho, hop⟩ := registerOperands_pair hi
    rw [encode, ho] at hc
    rw [firstFailingCheck_alu hop hc (by omega), if_pos (by omega)]
  | divisor _ a b i j ha hb hz =>
    have := hb.le_seven
    rw [firstFailingCheck_alu (op := opDiv) (by decide) hc ha.le_seven, ha.finOfNat_eq, hb.finOfNat_eq,
      if_neg (by omega), if_pos ⟨rfl, hz⟩]
  | pushFull _ a i ha h => rw [firstFailingCheck_push hc ha.le_seven, if_pos h]
  | callFull _ a i ha h => rw [firstFailingCheck_call hc ha.le_seven, if_pos h]
  | callReturn _ a i ha hs h =>
    have hpc : s.pc.toNat = 254 := le_antisymm (codeAt_two hc).1 h
    rw [firstFailingCheck_call hc ha.le_seven, if_neg (by omega), if_pos hpc, hpc]
    rfl
  | popEmpty _ a i ha h => rw [firstFailingCheck_pop hc ha.le_seven, if_pos h]
  | retEmpty _ h => rw [firstFailingCheck_ret hc, if_pos h]

/-- An ALU instruction at `pc` with legal operands passes every check, DIV with a divisor that is not zero. -/
theorem firstFailingCheck_alu_none {s : State} {op a b : Byte} {i j : RegIndex}
    (hop : op ∈ [0xA0#8, 0xA1#8, 0xA2#8, 0xA3#8, 0xA8#8]) (hc : CodeAt s [op, a, b]) (ha : Names a i) (hb : Names b j)
    (hz : op = 0xA3#8 → s.reg j ≠ 0#8) : firstFailingCheck s = none := by
  have := hb.le_seven
  rw [firstFailingCheck_alu hop hc ha.le_seven, hb.finOfNat_eq, if_neg (by omega), if_neg fun h => hz h.1 h.2]

/-- An instruction at `pc` that completes has passed every check. -/
theorem Completes.firstFailingCheck_eq_none {i : Instr} {s t : State} (h : Completes i s t) (hc : CodeAt s (encode i)) :
    firstFailingCheck s = none := by
  cases h with
  | hlt =>
    obtain ⟨hp, h0⟩ := codeAt_one hc
    simp [firstFailingCheck, h0, Instr.opcode, operandCount, hp]
  | ret _ below h => rw [firstFailingCheck_ret hc, if_neg (by omega)]
  | push _ a i slot ha h =>
    have := slot.isLt
    rw [firstFailingCheck_push hc ha.le_seven, if_neg (by omega)]
  | pop _ a i below ha h => rw [firstFailingCheck_pop hc ha.le_seven, if_neg (by omega)]
  | prn _ a i ha =>
    obtain ⟨hp, h0, h1⟩ := codeAt_two hc
    have hA : ¬ 7 < a.toNat := Nat.not_lt.mpr ha.le_seven
    have hP : ¬ 255 < s.pc.toNat + 1 := by omega
    simp [firstFailingCheck, h0, h1, Instr.opcode, operandCount, hA, hP]
  | call _ a i slot ret ha h hr =>
    have := slot.isLt
    have := ret.isLt
    rw [firstFailingCheck_call hc ha.le_seven, if_neg (by omega), if_neg (by omega)]
  | ldi _ a imm i ha =>
    obtain ⟨hp, h0, h1, -⟩ := codeAt_three hc
    have hA : ¬ 7 < a.toNat := Nat.not_lt.mpr ha.le_seven
    have hP : ¬ 255 < s.pc.toNat + 2 := by omega
    simp [firstFailingCheck, h0, h1, Instr.opcode, operandCount, hA, hP]
  | add _ a b i j ha hb => exact firstFailingCheck_alu_none (op := opAdd) (by decide) hc ha hb (absurd · (by decide))
  | sub _ a b i j ha hb => exact firstFailingCheck_alu_none (op := opSub) (by decide) hc ha hb (absurd · (by decide))
  | mul _ a b i j ha hb => exact firstFailingCheck_alu_none (op := opMul) (by decide) hc ha hb (absurd · (by decide))
  | div _ a b i j ha hb hz => exact firstFailingCheck_alu_none (op := opDiv) (by decide) hc ha hb fun _ => hz
  | and _ a b i j ha hb => exact firstFailingCheck_alu_none (op := opAnd) (by decide) hc ha hb (absurd · (by decide))

/-- A cycle either passes every check and completes, or raises the fault of the first failing one. -/
theorem step_firstFailingCheck_cases {s : State} (hr : s.run = .running) (hp : s.pc.toNat ≤ 255) :
    (firstFailingCheck s = none ∧ ∃ t, step s = .next t ∧ t.run ≠ .faulted ∧ t.fault = s.fault) ∨
    (∃ c, firstFailingCheck s = some c ∧ step s = raise c s) := by
  obtain ⟨i, t, hc, ht, hs⟩ | ⟨c, hs, ⟨i, hc, hf⟩ | ⟨rfl, hw, hn⟩ | ⟨rfl, hw⟩⟩ := step_cases hr hp
  · exact .inl ⟨ht.firstFailingCheck_eq_none hc, t, hs, ht.run_ne_faulted hr hc.1, ht.fault_eq⟩
  · exact .inr ⟨c, hf.firstFailingCheck_eq hc, hs⟩
  · exact .inr ⟨_, firstFailingCheck_of_operandMissing hw hn, hs⟩
  · exact .inr ⟨_, firstFailingCheck_of_unwired hw, hs⟩

/-- Settles O16: the machine's cases of a cycle agree, one by one, with the order of checks written from R79. -/
theorem firstFailingCheckRaisesItsFault : Obligations.FirstFailingCheckRaisesItsFault := by
  intro s hr hp
  obtain ⟨hnone, hnext⟩ | ⟨c, hsome, hs⟩ := step_firstFailingCheck_cases hr hp
  · exact ⟨fun c h => by simp [hnone] at h, fun _ => hnext⟩
  · refine ⟨fun d h => ?_, fun h => by simp [hsome] at h⟩
    obtain rfl : c = d := Option.some.inj (hsome.symm.trans h)
    exact hs ▸ raise_raises c hp

/-! ### The end of memory -/

/-- No wired instruction has three operand bytes (spec/30_encoding.md R55). -/
theorem operandCount_opcode_le_two {i : Instr} (h : i.wired = true) : operandCount i.opcode ≤ 2 := by
  rw [← Instr.operands_length h]
  cases i <;> simp [Instr.operands]

theorem AdvancedBy.endOfMemory_iff {s t : State} {len : Nat} (h : AdvancedBy s t len) :
    t.run = .endOfMemory ↔ t.pc.toNat = 256 := by
  obtain ⟨hpc, hrun⟩ := h
  rw [hpc, hrun]
  split <;> simp [*]

/-- A cycle leaves `pc` inside memory and does not end there, or it advances by the length of a two-byte or three-byte
instruction whose opcode has `P = 0` (spec/40_cycle.md R76). -/
theorem step_stays_inside_or_advances {s t : State} (hr : s.run = .running) (hp : s.pc.toNat ≤ 255)
    (hs : step s = .next t) :
    (t.run ≠ .endOfMemory ∧ t.pc.toNat ≤ 255) ∨
    (t.fault = s.fault ∧ setsPc (s.readByte s.pc.toNat) = false ∧ 1 ≤ operandCount (s.readByte s.pc.toNat) ∧
      operandCount (s.readByte s.pc.toNat) ≤ 2 ∧ AdvancedBy s t (operandCount (s.readByte s.pc.toNat) + 1)) := by
  have byte_le (b : Byte) : b.toNat ≤ 255 := Nat.le_of_lt_succ b.isLt
  obtain ⟨hne, -⟩ | ⟨-, -, i, hc, ht⟩ | ⟨-, -, c, -, rfl, -⟩ := step_next_cases hs
  · exact absurd hr hne
  · obtain ⟨-, hpc, hrun⟩ | ⟨-, hpc, hrun⟩ | ⟨a, j, -, -, hpc, hrun⟩ | ⟨hw, -, -, -, hP, hone, hadv⟩ :=
      ht.pc_cases hr hc.1
    · exact .inl ⟨by simp [hrun], hpc ▸ hp⟩
    · exact .inl ⟨by simp [hrun], hpc ▸ byte_le _⟩
    · exact .inl ⟨by simp [hrun], hpc ▸ byte_le _⟩
    · rw [(opcodeAt_of_codeAt hc).2]
      exact .inr ⟨ht.fault_eq, hP, hone, operandCount_opcode_le_two hw, hadv⟩
  · exact .inl ⟨by simp, hp⟩

/-- Settles O40: only an advance by the instruction's length can leave `pc` at 256. -/
theorem endOfMemoryIsTheSentinel : Obligations.EndOfMemoryIsTheSentinel := by
  intro s t hr hp hs
  obtain ⟨hrun, hpc⟩ | ⟨hf, hP, hone, htwo, hadv⟩ := step_stays_inside_or_advances hr hp hs
  · exact ⟨iff_of_false hrun (by omega), fun h => absurd h hrun⟩
  · refine ⟨hadv.endOfMemory_iff, fun hend => ⟨hf, hP, ?_⟩⟩
    have hlast : t.pc.toNat = 256 := hadv.endOfMemory_iff.mp hend
    rw [hadv.1] at hlast
    omega

end Sys2Proof.Machine

namespace Sys2Proof.Machine

/-! ### A cycle of an instruction that stands at `pc` -/

theorem decode_encode_append (i : Instr) (tail : List Byte) : decode (encode i ++ tail) = .ok (i, tail) := by
  cases i <;> rfl

theorem encode_length_bounds (i : Instr) : 1 ≤ (encode i).length ∧ (encode i).length ≤ 3 := by
  cases i <;> simp [encode, Instr.operands]

/-- Where the encoding of `i` stands at `pc`, a cycle is `exec i` (spec/40_cycle.md R72 to R75). -/
theorem step_of_codeAt {s : State} {i : Instr} (hr : s.run = .running) (hc : CodeAt s (encode i)) : step s = exec i s := by
  obtain ⟨hone, hthree⟩ := encode_length_bounds i
  obtain ⟨tail, hw⟩ := codeWindow_of_codeAt hc hone hthree
  exact step_decoded hr (by rw [hw, decode_encode_append])

/-- A wired opcode with an operand byte past address 255 raises its fault (spec/40_cycle.md R74). -/
theorem OpcodeAt.step_raises_operandFetch {s : State} {op : Byte} (ho : OpcodeAt s op) (hr : s.run = .running)
    (hw : isWired op = true) (hn : 255 < s.pc.toNat + operandCount op) :
    Raises s (.memoryOutOfRange .operandFetch 256) (step s) := by
  obtain ⟨hp, rfl⟩ := ho
  exact (operandFetchReadsWhatIsThereOrFaults s hr hp hw).2 hn

/-- The index check of operand A comes before everything else a meaning does (spec/40_cycle.md R79). -/
theorem exec_checks_operandA {i : Instr} {a : Byte} {more : List Byte} (hi : i.registerOperands = a :: more) (s : State) :
    ∃ k, exec i s = orRaise (regIndex .operandA a) s k := by
  cases i <;> cases hi <;> exact ⟨_, rfl⟩

/-- An illegal operand A raises its fault, whatever the instruction does with the register (spec/60_exceptions.md R143). -/
theorem exec_raises_indexA {s : State} {i : Instr} {a : Byte} {more : List Byte} {n : Nat}
    (hi : i.registerOperands = a :: more) (hR : Ready s n) (ha : 7 < a.toNat) :
    Raises s (.registerIndexOutOfRange .operandA a) (exec i s) := by
  obtain ⟨k, hk⟩ := exec_checks_operandA hi s
  rw [hk, regIndex_illegal ha, orRaise_error]
  exact raise_raises _ (Nat.le_of_add_right_le hR.2)

/-! ### LDI, PRN, HLT -/

/-- LDI's effect on a legal index: the register takes the immediate, and `pc` advances by three. -/
theorem execLdi_completes {s : State} {a : Byte} {i : RegIndex} (imm : Byte) (hR : Ready s 2) (ha : Names a i) :
    ∃ t, exec (.ldi a imm) s = .next t ∧ t.reg i = imm ∧ SameRegsBut s t i ∧ SameMem s t ∧ t.sp = s.sp ∧
      t.out = s.out ∧ t.fault = s.fault ∧ AdvancedBy s t 3 :=
  have hadv : AdvancedBy s (pcUpdate opLdi (s.setReg i imm)) 3 := pcUpdate_advancedBy hR rfl rfl rfl rfl
  ⟨_, execLdi_eq imm s ha, s.reg_setReg_same i imm, fun j hj => s.reg_setReg_other i j imm hj, fun _ => rfl, rfl, rfl, rfl,
    hadv⟩

/-- Settles O18: the effect on a legal index, then the shared rules of the index check, the operand fetch and the cycle. -/
theorem ldiLoadsItsImmediate : Obligations.LdiLoadsItsImmediate := by
  intro s a imm
  refine ⟨fun _ => execLdi_completes imm, exec_raises_indexA rfl, fun hr ho hp => ?_,
    step_of_codeAt (i := .ldi a imm)⟩
  have hcount : operandCount 0x82#8 = 2 := rfl
  exact ho.step_raises_operandFetch hr rfl (by omega)

/-- PRN's effect on a legal index: the register's byte goes to the end of `out`, and `pc` advances by two. -/
theorem execPrn_completes {s : State} {a : Byte} {i : RegIndex} (hR : Ready s 1) (ha : Names a i) :
    ∃ t, exec (.prn a) s = .next t ∧ t.out = s.out ++ [s.reg i] ∧ SameRegs s t ∧ SameMem s t ∧ t.sp = s.sp ∧
      t.fault = s.fault ∧ AdvancedBy s t 2 :=
  have hadv : AdvancedBy s (pcUpdate opPrn (s.emit (s.reg i))) 2 := pcUpdate_advancedBy hR rfl rfl rfl rfl
  ⟨_, execPrn_eq s ha, rfl, fun _ => rfl, fun _ => rfl, rfl, rfl, hadv⟩

/-- Settles O19: the effect on a legal index, then the shared rules of the index check, the operand fetch and the cycle. -/
theorem prnEmitsItsRegister : Obligations.PrnEmitsItsRegister := by
  intro s a
  refine ⟨fun _ => execPrn_completes, exec_raises_indexA rfl, fun hr ho hp => ?_,
    step_of_codeAt (i := .prn a)⟩
  have hcount : operandCount 0x47#8 = 1 := rfl
  exact ho.step_raises_operandFetch hr rfl (by omega)

/-- Settles O20: HLT changes the run state only, and a Halted engine performs no cycle. -/
theorem hltHaltsInPlace : Obligations.HltHaltsInPlace := by
  intro s hR
  have hstop : step { s with run := .halted } = .next { s with run := .halted } := step_terminal (by simp)
  exact ⟨⟨_, execHlt_eq s, rfl, rfl, fun _ => rfl, fun _ => rfl, rfl, rfl, rfl, hstop⟩,
    step_of_codeAt (i := .hlt) hR.1⟩

end Sys2Proof.Machine

namespace Sys2Proof.Machine

/-! ### PUSH, POP -/

theorem exists_names_of_le_seven {a : Byte} (h : a.toNat ≤ 7) : ∃ i, Names a i :=
  ⟨⟨a.toNat, Nat.lt_succ_of_le h⟩, rfl⟩

/-- A wired opcode in the last byte of memory that needs an operand raises the fault of the missing byte
(spec/40_cycle.md R74). -/
theorem OpcodeAt.step_raises_operandFetch_at_255 {s : State} {op : Byte} (ho : OpcodeAt s op) (hr : s.run = .running)
    (hw : isWired op = true) (hn : 1 ≤ operandCount op) (hp : s.pc.toNat = 255) :
    Raises s (.memoryOutOfRange .operandFetch 256) (step s) :=
  ho.step_raises_operandFetch hr hw (by omega)

/-- PUSH's effect on a legal index with room on the stack: the cell at `sp + 1` takes the register's byte, `sp` moves up to
it, and `pc` advances by two. -/
theorem execPush_completes {s : State} {a : Byte} {i : RegIndex} (hR : Ready s 1) (ha : Names a i)
    (hroom : s.sp.toNat ≤ 254) :
    ∃ t, exec (.push a) s = .next t ∧ t.sp.toNat = s.sp.toNat + 1 ∧ t.readByte (s.sp.toNat + 1) = s.reg i ∧
      SameMemBut s t (s.sp.toNat + 1) ∧ SameRegs s t ∧ t.out = s.out ∧ t.fault = s.fault ∧ AdvancedBy s t 2 := by
  obtain ⟨slot, hslot, hval⟩ := pushSlot_ok (Nat.lt_succ_of_le hroom)
  have hadv : AdvancedBy s (pcUpdate opPush ({ s with sp := slot }.writeByte slot (s.reg i))) 2 :=
    pcUpdate_advancedBy hR rfl rfl rfl rfl
  rw [← hval]
  exact ⟨_, execPush_eq ha hslot, rfl, State.readByte_writeByte_same _ _ _,
    fun b hb => State.readByte_writeByte_other _ _ b _ hb, fun _ => rfl, rfl, rfl, hadv⟩

/-- With `sp` at 255 there is no cell above it to push to. -/
theorem execPush_raises_full {s : State} {a : Byte} (hR : Ready s 1) (ha : a.toNat ≤ 7) (hfull : s.sp.toNat = 255) :
    Raises s (.memoryOutOfRange .stackPush 256) (exec (.push a) s) := by
  obtain ⟨i, hi⟩ := exists_names_of_le_seven ha
  have hexec : exec (.push a) s = raise (.memoryOutOfRange .stackPush 256) s := by
    show execPush a s = _
    rw [execPush, regIndex_names hi, orRaise_ok, pushSlot_full hfull, orRaise_error]
  exact hexec ▸ raise_raises _ (Nat.le_of_add_right_le hR.2)

/-- Settles O21: the effect with room on the stack, the full stack, then the shared rules of the index check, the operand
fetch and the cycle. -/
theorem pushIncrementsThenWrites : Obligations.PushIncrementsThenWrites := by
  intro s a
  exact ⟨fun _ => execPush_completes, exec_raises_indexA rfl, execPush_raises_full,
    fun hr ho => ho.step_raises_operandFetch_at_255 hr rfl (by decide), step_of_codeAt (i := .push a)⟩

/-- POP's effect on a legal index with a cell to pop: the register takes the byte at the old `sp`, `sp` moves down by one,
and `pc` advances by two. -/
theorem execPop_completes {s : State} {a : Byte} {i : RegIndex} (hR : Ready s 1) (ha : Names a i)
    (hcell : 1 ≤ s.sp.toNat) :
    ∃ t, exec (.pop a) s = .next t ∧ t.reg i = s.readByte s.sp.toNat ∧ t.sp.toNat + 1 = s.sp.toNat ∧
      SameRegsBut s t i ∧ SameMem s t ∧ t.out = s.out ∧ t.fault = s.fault ∧ AdvancedBy s t 2 := by
  obtain ⟨below, hbelow, hval⟩ := poppedSp_ok hcell
  have hadv : AdvancedBy s (pcUpdate opPop ({ s with sp := below }.setReg i (s.readByte s.sp.toNat))) 2 :=
    pcUpdate_advancedBy hR rfl rfl rfl rfl
  exact ⟨_, execPop_eq ha hbelow, State.reg_setReg_same _ i _, hval, fun j hj => State.reg_setReg_other _ i j _ hj,
    fun _ => rfl, rfl, rfl, hadv⟩

/-- With `sp` at 0 there is no stack pointer below it. -/
theorem execPop_raises_empty {s : State} {a : Byte} (hR : Ready s 1) (ha : a.toNat ≤ 7) (hempty : s.sp.toNat = 0) :
    Raises s (.memoryOutOfRange .stackPop (-1)) (exec (.pop a) s) := by
  obtain ⟨i, hi⟩ := exists_names_of_le_seven ha
  have hexec : exec (.pop a) s = raise (.memoryOutOfRange .stackPop (-1)) s := by
    show execPop a s = _
    rw [execPop, regIndex_names hi, orRaise_ok, poppedSp_empty hempty, orRaise_error]
  exact hexec ▸ raise_raises _ (Nat.le_of_add_right_le hR.2)

/-- Settles O22: the effect with a cell to pop, the empty stack, then the shared rules of the index check, the operand fetch
and the cycle. -/
theorem popReadsThenDecrements : Obligations.PopReadsThenDecrements := by
  intro s a
  exact ⟨fun _ => execPop_completes, exec_raises_indexA rfl, execPop_raises_empty,
    fun hr ho => ho.step_raises_operandFetch_at_255 hr rfl (by decide), step_of_codeAt (i := .pop a)⟩

end Sys2Proof.Machine

namespace Sys2Proof.Machine

/-! ### CALL, RET -/

/-- A jump's target is a byte, so the PC update of an opcode with `P = 1` neither moves `pc` nor ends the run
(spec/40_cycle.md R76, R77). -/
theorem pcUpdate_of_jump {op : Byte} {s : State} {target : Byte} (hP : setsPc op = true) (hpc : s.pc = zext9 target) :
    pcUpdate op s = s :=
  pcUpdate_keeps hP (by rw [hpc, zext9_toNat]; exact Nat.le_of_lt_succ target.isLt)

/-- CALL's effect on a legal index with room on the stack and a return address inside memory: the cell at `sp + 1` takes
`pc + 2`, `sp` moves up to it, and `pc` takes the register's byte. -/
theorem execCall_completes {s : State} {a : Byte} {i : RegIndex} (hR : Ready s 1) (ha : Names a i)
    (hroom : s.sp.toNat ≤ 254) (hret : s.pc.toNat ≤ 253) :
    ∃ t, exec (.call a) s = .next t ∧ t.pc.toNat = (s.reg i).toNat ∧ t.sp.toNat = s.sp.toNat + 1 ∧
      (t.readByte (s.sp.toNat + 1)).toNat = s.pc.toNat + 2 ∧ SameMemBut s t (s.sp.toNat + 1) ∧ SameRegs s t ∧
      t.out = s.out ∧ t.fault = s.fault ∧ t.run = .running := by
  obtain ⟨slot, hslot, hslotVal⟩ := pushSlot_ok (Nat.lt_succ_of_le hroom)
  obtain ⟨ret, hretOk, hretVal⟩ := returnAddress_ok hret
  have hexec := execCall_eq ha hslot hretOk
  rw [pcUpdate_of_jump rfl rfl] at hexec
  rw [← hslotVal, ← hretVal]
  exact ⟨_, hexec, zext9_toNat _, rfl, congrArg BitVec.toNat (State.readByte_writeByte_same _ _ _),
    fun b hb => State.readByte_writeByte_other _ _ b _ hb, fun _ => rfl, rfl, rfl, hR.1⟩

/-- With `sp` at 255 there is no cell to hold the return address, wherever `pc` stands. -/
theorem execCall_raises_full {s : State} {a : Byte} (hR : Ready s 1) (ha : a.toNat ≤ 7) (hfull : s.sp.toNat = 255) :
    Raises s (.memoryOutOfRange .stackPush 256) (exec (.call a) s) := by
  obtain ⟨i, hi⟩ := exists_names_of_le_seven ha
  have hexec : exec (.call a) s = raise (.memoryOutOfRange .stackPush 256) s := by
    show execCall a s = _
    rw [execCall, regIndex_names hi, orRaise_ok, pushSlot_full hfull, orRaise_error]
  exact hexec ▸ raise_raises _ (Nat.le_of_add_right_le hR.2)

/-- A CALL in the last two bytes of memory has no return address inside memory; the check comes after the stack's. -/
theorem execCall_raises_returnAddress {s : State} {a : Byte} (hR : Ready s 1) (ha : a.toNat ≤ 7)
    (hroom : s.sp.toNat ≤ 254) (hlast : s.pc.toNat = 254) :
    Raises s (.memoryOutOfRange .returnAddress 256) (exec (.call a) s) := by
  obtain ⟨i, hi⟩ := exists_names_of_le_seven ha
  obtain ⟨slot, hslot, -⟩ := pushSlot_ok (Nat.lt_succ_of_le hroom)
  have hexec : exec (.call a) s = raise (.memoryOutOfRange .returnAddress 256) s := by
    show execCall a s = _
    rw [execCall, regIndex_names hi, orRaise_ok, hslot, orRaise_ok, returnAddress_at_254 hlast, orRaise_error]
  exact hexec ▸ raise_raises _ (Nat.le_of_add_right_le hR.2)

/-- Settles O24: the effect, the full stack and the return address past memory, then the shared rules of the index check,
the operand fetch and the cycle. -/
theorem callPushesReturnAddressAndJumps : Obligations.CallPushesReturnAddressAndJumps := by
  intro s a
  exact ⟨fun _ => execCall_completes, exec_raises_indexA rfl, execCall_raises_full, execCall_raises_returnAddress,
    fun hr ho => ho.step_raises_operandFetch_at_255 hr rfl (by decide), step_of_codeAt (i := .call a)⟩

/-- RET's effect with a cell to pop: `pc` takes the byte at the old `sp`, and `sp` moves down by one. -/
theorem execRet_completes {s : State} (hR : Ready s 0) (hcell : 1 ≤ s.sp.toNat) :
    ∃ t, exec .ret s = .next t ∧ t.pc.toNat = (s.readByte s.sp.toNat).toNat ∧ t.sp.toNat + 1 = s.sp.toNat ∧
      SameRegs s t ∧ SameMem s t ∧ t.out = s.out ∧ t.fault = s.fault ∧ t.run = .running := by
  obtain ⟨below, hbelow, hval⟩ := poppedSp_ok hcell
  have hexec := execRet_eq hbelow
  rw [pcUpdate_of_jump rfl rfl] at hexec
  exact ⟨_, hexec, zext9_toNat _, hval, fun _ => rfl, fun _ => rfl, rfl, rfl, hR.1⟩

/-- With `sp` at 0 there is no stack pointer below it, and RET does not jump. -/
theorem execRet_raises_empty {s : State} (hR : Ready s 0) (hempty : s.sp.toNat = 0) :
    Raises s (.memoryOutOfRange .stackPop (-1)) (exec .ret s) := by
  have hexec : exec .ret s = raise (.memoryOutOfRange .stackPop (-1)) s := by
    show execRet s = _
    rw [execRet, poppedSp_empty hempty, orRaise_error]
  exact hexec ▸ raise_raises _ hR.2

/-- Settles O25: the effect with a cell to pop, the empty stack, then the shared rule of the cycle. -/
theorem retPopsAndJumps : Obligations.RetPopsAndJumps := by
  intro s hR
  exact ⟨execRet_completes hR, execRet_raises_empty hR, step_of_codeAt (i := .ret) hR.1⟩

end Sys2Proof.Machine

namespace Sys2Proof.Machine

/-! ### The five functions of the ALU, on numbers (spec/44_alu.md R121 to R125) -/

theorem aluAdd_toNat (u v : Byte) : (aluAdd u v).toNat = (u.toNat + v.toNat) % 256 := BitVec.toNat_add u v

theorem aluSub_toNat (u v : Byte) : ((aluSub u v).toNat : Int) = ((u.toNat : Int) - (v.toNat : Int)) % 256 := by
  have hnat : (aluSub u v).toNat = (256 - v.toNat + u.toNat) % 256 := BitVec.toNat_sub u v
  have hv := v.isLt
  omega

theorem aluMul_toNat (u v : Byte) : (aluMul u v).toNat = (u.toNat * v.toNat) % 256 := BitVec.toNat_mul u v

theorem aluAnd_getLsbD (u v : Byte) (k : Nat) :
    (aluAnd u v).getLsbD k = true ↔ u.getLsbD k = true ∧ v.getLsbD k = true := by
  rw [aluAnd, BitVec.getLsbD_and, Bool.and_eq_true]

theorem aluDiv_toNat (u v : Byte) : (aluDiv u v).toNat = u.toNat / v.toNat := BitVec.toNat_udiv

theorem aluDiv_mul_le (u v : Byte) : (aluDiv u v).toNat * v.toNat ≤ u.toNat := by
  rw [aluDiv_toNat]
  exact Nat.div_mul_le_self _ _

theorem lt_succ_aluDiv_mul (u : Byte) {v : Byte} (hv : v ≠ 0#8) : u.toNat < ((aluDiv u v).toNat + 1) * v.toNat := by
  have hpos : 0 < v.toNat := Nat.pos_of_ne_zero fun h => hv (BitVec.eq_of_toNat_eq h)
  rw [aluDiv_toNat, Nat.mul_comm]
  exact Nat.lt_mul_div_succ _ hpos

/-! ### What the ALU instructions share -/

/-- `mk` makes the ALU instruction with opcode byte `op`: both operands are register indices, and it runs the frame of
spec/44_alu.md R120 for the function `f` with the check `check` of its own. -/
structure IsAluInstr (op : Byte) (mk : Byte → Byte → Instr) (check : State → RegIndex → RegIndex → Except Cause Unit)
    (f : Byte → Byte → Byte) : Prop where
  opcode_eq : ∀ a b, (mk a b).opcode = op
  registerOperands_eq : ∀ a b, (mk a b).registerOperands = [a, b]
  exec_eq : ∀ a b s, exec (mk a b) s = aluFrame op check f a b s

theorem isAluInstr_add : IsAluInstr 0xA0#8 .add noCheck aluAdd := ⟨fun _ _ => rfl, fun _ _ => rfl, fun _ _ _ => rfl⟩
theorem isAluInstr_sub : IsAluInstr 0xA1#8 .sub noCheck aluSub := ⟨fun _ _ => rfl, fun _ _ => rfl, fun _ _ _ => rfl⟩
theorem isAluInstr_mul : IsAluInstr 0xA2#8 .mul noCheck aluMul := ⟨fun _ _ => rfl, fun _ _ => rfl, fun _ _ _ => rfl⟩
theorem isAluInstr_div : IsAluInstr 0xA3#8 .div divisorCheck aluDiv := ⟨fun _ _ => rfl, fun _ _ => rfl, fun _ _ _ => rfl⟩
theorem isAluInstr_and : IsAluInstr 0xA8#8 .and noCheck aluAnd := ⟨fun _ _ => rfl, fun _ _ => rfl, fun _ _ _ => rfl⟩

/-- The flags in the five ALU opcodes (spec/30_encoding.md R52, R53): two operand bytes, and `pc` is not set. -/
theorem alu_opcode_fields : ∀ op ∈ [0xA0#8, 0xA1#8, 0xA2#8, 0xA3#8, 0xA8#8],
    isWired op = true ∧ operandCount op = 2 ∧ setsPc op = false := by
  decide

section
variable {op : Byte} {mk : Byte → Byte → Instr} {check : State → RegIndex → RegIndex → Except Cause Unit}
  {f : Byte → Byte → Byte} {s : State} {a b : Byte} {i j : RegIndex}

theorem IsAluInstr.opcode_fields (h : IsAluInstr op mk check f) :
    isWired op = true ∧ operandCount op = 2 ∧ setsPc op = false :=
  alu_opcode_fields op (h.opcode_eq 0 0 ▸ (registerOperands_pair (h.registerOperands_eq 0 0)).2)

theorem IsAluInstr.encode_eq (h : IsAluInstr op mk check f) (a b : Byte) : encode (mk a b) = [op, a, b] := by
  rw [encode, h.opcode_eq, (registerOperands_pair (h.registerOperands_eq a b)).1]

/-- The effect where every check passes: register `i` takes `f` of both sources as they were, and `pc` advances by three. -/
theorem IsAluInstr.exec_completes (h : IsAluInstr op mk check f) (hR : Ready s 2) (ha : Names a i) (hb : Names b j)
    (hc : check s i j = .ok ()) :
    ∃ t, exec (mk a b) s = .next t ∧ t.reg i = f (s.reg i) (s.reg j) ∧ SameRegsBut s t i ∧ SameMem s t ∧ t.sp = s.sp ∧
      t.out = s.out ∧ t.fault = s.fault ∧ AdvancedBy s t 3 := by
  obtain ⟨-, hcount, hP⟩ := h.opcode_fields
  have hadv : AdvancedBy s (pcUpdate op (s.setReg i (f (s.reg i) (s.reg j)))) 3 :=
    pcUpdate_advancedBy hR rfl rfl hP hcount
  exact ⟨_, (h.exec_eq a b s).trans (aluFrame_eq ha hb hc), s.reg_setReg_same i _,
    fun k hk => s.reg_setReg_other i k _ hk, fun _ => rfl, rfl, rfl, rfl, hadv⟩

theorem IsAluInstr.exec_raises_indexA (h : IsAluInstr op mk check f) (hR : Ready s 2) (ha : 7 < a.toNat) :
    Raises s (.registerIndexOutOfRange .operandA a) (exec (mk a b) s) :=
  Machine.exec_raises_indexA (h.registerOperands_eq a b) hR ha

/-- An illegal operand B raises its fault once operand A has passed, before the check of the instruction's own. -/
theorem IsAluInstr.exec_raises_indexB (h : IsAluInstr op mk check f) (hR : Ready s 2) (ha : a.toNat ≤ 7)
    (hb : 7 < b.toNat) : Raises s (.registerIndexOutOfRange .operandB b) (exec (mk a b) s) := by
  obtain ⟨i, hi⟩ := exists_names_of_le_seven ha
  rw [h.exec_eq, aluFrame, regIndex_names hi, orRaise_ok, regIndex_illegal hb, orRaise_error]
  exact raise_raises _ (Nat.le_of_add_right_le hR.2)

/-- The instruction's own check raises its fault on legal indices. -/
theorem IsAluInstr.exec_raises_check (h : IsAluInstr op mk check f) {c : Cause} (hR : Ready s 2) (ha : Names a i)
    (hb : Names b j) (hc : check s i j = .error c) : Raises s c (exec (mk a b) s) := by
  rw [h.exec_eq, aluFrame, regIndex_names ha, orRaise_ok, regIndex_names hb, orRaise_ok, hc, orRaise_error]
  exact raise_raises _ (Nat.le_of_add_right_le hR.2)

theorem IsAluInstr.step_raises_operandFetch (h : IsAluInstr op mk check f) (hr : s.run = .running) (ho : OpcodeAt s op)
    (hp : 254 ≤ s.pc.toNat) : Raises s (.memoryOutOfRange .operandFetch 256) (step s) := by
  obtain ⟨hw, hcount, -⟩ := h.opcode_fields
  exact ho.step_raises_operandFetch hr hw (by omega)

theorem IsAluInstr.step_eq_exec (h : IsAluInstr op mk check f) (hr : s.run = .running) (hc : CodeAt s [op, a, b]) :
    step s = exec (mk a b) s :=
  step_of_codeAt hr (h.encode_eq a b ▸ hc)

/-- An ALU instruction with no check of its own follows `AluRule` for every description of the values of `f`. -/
theorem IsAluInstr.aluRule {result : Byte → Byte → Byte → Prop} (h : IsAluInstr op mk noCheck f)
    (hf : ∀ u v, result u v (f u v)) : AluRule op mk result := by
  intro s a b
  refine ⟨fun i j hR ha hb => ?_, h.exec_raises_indexA, h.exec_raises_indexB, h.step_raises_operandFetch, h.step_eq_exec⟩
  obtain ⟨t, ht, hval, hframe⟩ := h.exec_completes hR ha hb rfl
  exact ⟨t, ht, hval ▸ hf _ _, hframe⟩

end

/-! ### ADD, SUB, MUL, AND, DIV -/

/-- Settles O27: the shared rule, with the sum modulo 256. -/
theorem addIsSumModulo256 : Obligations.AddIsSumModulo256 := isAluInstr_add.aluRule aluAdd_toNat

/-- Settles O28: the shared rule, with the difference modulo 256. -/
theorem subIsDifferenceModulo256 : Obligations.SubIsDifferenceModulo256 := isAluInstr_sub.aluRule aluSub_toNat

/-- Settles O29: the shared rule, with the product modulo 256. -/
theorem mulIsProductModulo256 : Obligations.MulIsProductModulo256 := isAluInstr_mul.aluRule aluMul_toNat

/-- Settles O30: the shared rule, with the conjunction bit by bit. -/
theorem andIsBitwise : Obligations.AndIsBitwise := isAluInstr_and.aluRule fun u v k _ => aluAnd_getLsbD u v k

/-- Settles O31: the shared effect and faults, with DIV's divisor check deciding between the quotient and
`DivideByZero`. -/
theorem divIsUnsignedQuotientOrFault : Obligations.DivIsUnsignedQuotientOrFault := by
  intro s a b
  have hdiv := isAluInstr_div
  refine ⟨fun i j hR ha hb hz => ?_, fun i j hR ha hb hz => hdiv.exec_raises_check hR ha hb (divisorCheck_zero hz),
    hdiv.exec_raises_indexA, hdiv.exec_raises_indexB, hdiv.step_raises_operandFetch, hdiv.step_eq_exec⟩
  obtain ⟨t, ht, hval, hframe⟩ := hdiv.exec_completes hR ha hb (divisorCheck_nonzero hz)
  exact ⟨t, ht, hval ▸ aluDiv_mul_le _ _, hval ▸ lt_succ_aluDiv_mul _ hz, hframe⟩

end Sys2Proof.Machine

namespace Sys2Proof.Machine

/-! ### Which fault, and what runs after it -/

/-- The checks of a wired instruction raise other causes than the decode step's (spec/60_exceptions.md R141). -/
theorem FaultsWith.cause_ne_unsupportedInstruction {i : Instr} {s : State} {c : Cause} (h : FaultsWith i s c)
    (hw : i.wired = true) : c ≠ .unsupportedInstruction := by
  cases h with
  | reserved _ _ hu => exact absurd hw (by simp [hu])
  | _ => exact Cause.noConfusion

/-- A wired instruction leaves the fault record as it was, or writes a record of a cause of its own. -/
theorem exec_wired_record_cases {s t : State} {i : Instr} (hw : i.wired = true) (he : exec i s = .next t) :
    t.fault = s.fault ∨ ∃ r, t.fault = some r ∧ r.cause ≠ .unsupportedInstruction := by
  obtain ⟨u, hu, hx⟩ | ⟨c, hf, hx⟩ := exec_cases i s
  · obtain rfl : u = t := by simpa [hx] using he
    exact .inl hu.fault_eq
  · obtain ⟨-, rfl⟩ := raise_next (hx.symm.trans he)
    exact .inr ⟨_, rfl, hf.cause_ne_unsupportedInstruction hw⟩

/-- Settles O6: an unwired byte fails the first check of R79; the checks of a wired instruction have other causes. -/
theorem unwiredByteRaisesUnsupportedInstruction : Obligations.UnwiredByteRaisesUnsupportedInstruction := by
  refine ⟨fun s hr hp hop => ?_, fun s t i r hw hnone he hrec => ?_⟩
  · have hunwired : isWired (s.readByte s.pc.toNat) = false := Bool.eq_false_iff.mpr (mt isWired_iff.mp hop)
    exact (firstFailingCheckRaisesItsFault s hr hp).1 _ (firstFailingCheck_of_unwired hunwired)
  · obtain hkeep | ⟨q, hq, hc⟩ := exec_wired_record_cases hw he
    · simp [hkeep, hnone] at hrec
    · obtain rfl : q = r := Option.some.inj (hq.symm.trans hrec)
      exact hc

/-- A cycle that leaves the engine Faulted is fault entry for some cause (spec/60_exceptions.md R146). -/
theorem step_raises_of_faulted {s t : State} (hr : s.run = .running) (hs : step s = .next t) (hf : t.run = .faulted) :
    ∃ c, Raises s c (step s) := by
  obtain ⟨hne, -⟩ | ⟨-, -, i, hc, ht⟩ | ⟨-, hp, c, hraise, -⟩ := step_next_cases hs
  · exact absurd hr hne
  · exact absurd hf (ht.run_ne_faulted hr hc.1)
  · exact ⟨c, hraise ▸ raise_raises c hp⟩

/-- Step requests in a terminal state change nothing, however many (spec/40_cycle.md R71). -/
theorem runFor_terminal {s : State} (h : s.run ≠ .running) (k : Nat) : runFor k s = .next s := by
  induction k with
  | zero => rfl
  | succ k ih => rw [runFor_succ_of_next k (step_terminal h), ih]

/-- Settles O15: fault entry is the one way into Faulted, and Faulted is terminal. -/
theorem faultEntryIsPrecise : Obligations.FaultEntryIsPrecise := by
  intro s t k hr hs hf
  exact ⟨step_raises_of_faulted hr hs hf, runFor_terminal (by simp [hf]) k⟩

end Sys2Proof.Machine

namespace Sys2Proof

/-! ### Decoding against encoding -/

/-- Settles O2: what the decoder answers is an encoding it read, and every encoding reads back. -/
theorem decodeAndEncodeAgree : Obligations.DecodeAndEncodeAgree := by
  intro bytes rest i
  constructor
  · intro h
    cases bytes with
    | nil => cases h
    | cons op more =>
      obtain ⟨j, tail, rfl, rfl, hd⟩ | ⟨-, -, hd⟩ | ⟨-, hd⟩ := decode_cons_cases op more <;> rw [hd] at h
      · cases h
        rfl
      · cases h
      · cases h
  · rintro rfl
    exact Machine.decode_encode_append i rest

/-- The operand count is the opcode's two high bits as a number (spec/30_encoding.md R52). -/
theorem operandCount_eq_div (op : Byte) : operandCount op = op.toNat / 64 := by
  rw [operandCount, BitVec.toNat_ushiftRight, Nat.shiftRight_eq_div_pow]

/-- Settles O1: each byte string is read by the decoder. -/
theorem writtenOutWordsDecode : Obligations.WrittenOutWordsDecode :=
  ⟨rfl, rfl, rfl, rfl, rfl⟩

/-- Bit 4 of a wired opcode marks the two instructions that set `pc` (spec/30_encoding.md R53). -/
theorem opcode_bit_four_iff {i : Instr} (hw : i.wired = true) :
    i.opcode.toNat / 16 % 2 = 1 ↔ i = .ret ∨ ∃ a, i = .call a := by
  cases i with
  | ret => exact iff_of_true rfl (.inl rfl)
  | call a => exact iff_of_true (by simp [Instr.opcode]) (.inr ⟨a, rfl⟩)
  | cmp | dec | inc | mod | not | or | xor => cases hw
  | _ => exact iff_of_false (by simp [Instr.opcode]) (by simp)

/-- Settles O3: the length of an encoding by its operand count, and the flag by the opcode map. -/
theorem opcodeTellsLengthAndPcFlag : Obligations.OpcodeTellsLengthAndPcFlag := by
  intro i hw
  exact ⟨by rw [encode_length, if_pos hw, operandCount_eq_div], opcode_bit_four_iff hw⟩

end Sys2Proof

namespace Sys2Proof.Machine

/-! ### The invariant of the machine -/

/-- A state that is neither Faulted nor holds a record meets the invariant when its memory and its `pc` are in order. -/
theorem State.inv_of_no_record {s : State} (hm : s.mem.wf = true) (hp : s.pc.toNat ≤ 256)
    (hend : s.pc.toNat = 256 ↔ s.run = .endOfMemory) (hf : s.fault = none) (hr : s.run ≠ .faulted) : s.Inv where
  memCanonical := hm
  pcBound := hp
  sentinel := hend
  faultIff := by simp [hf, hr]
  record := by simp [hf]

/-- The invariant of a Running or Halted engine: memory canonical, `pc` inside memory, no record held. -/
theorem State.inv_iff_of_running_or_halted {s : State} (hr : s.run = .running ∨ s.run = .halted) :
    s.Inv ↔ s.mem.wf = true ∧ s.pc.toNat ≤ 255 ∧ s.fault = none := by
  have hend : s.run ≠ .endOfMemory := by rcases hr with h | h <;> simp [h]
  have hfault : s.run ≠ .faulted := by rcases hr with h | h <;> simp [h]
  constructor
  · intro h
    have hne : s.pc.toNat ≠ 256 := mt h.sentinel.mp hend
    have hle := h.pcBound
    refine ⟨h.memCanonical, by omega, ?_⟩
    simpa using mt h.faultIff.mp hfault
  · rintro ⟨hm, hp, hf⟩
    exact State.inv_of_no_record hm (by omega) (iff_of_false (by omega) hend) hf hfault

/-- What the invariant says of a Running engine. -/
theorem State.Inv.of_running {s : State} (h : s.Inv) (hr : s.run = .running) :
    s.mem.wf = true ∧ s.pc.toNat ≤ 255 ∧ s.fault = none :=
  (State.inv_iff_of_running_or_halted (.inl hr)).mp h

theorem State.Inv.pcInside {s : State} (h : s.Inv) (hr : s.run = .running) : s.pc.toNat ≤ 255 := by
  obtain ⟨-, hp, -⟩ := h.of_running hr
  exact hp

/-- Fault entry inside memory writes the record the invariant asks for. -/
theorem State.inv_of_fault_entry {s : State} (c : Cause) (hm : s.mem.wf = true) (hp : s.pc.toNat ≤ 255) :
    State.Inv { s with run := .faulted, fault := some { cause := c, atPc := s.pc, opcode := s.readByte s.pc.toNat } } where
  memCanonical := hm
  pcBound := Nat.le_succ_of_le hp
  sentinel := iff_of_false (show s.pc.toNat ≠ 256 by omega) (by simp)
  faultIff := by simp
  record := by
    rintro r h
    cases h
    exact ⟨rfl, rfl⟩

/-- A completed instruction whose bytes lie inside memory leaves `pc` at 256 at most. -/
theorem Completes.pc_le_sentinel {i : Instr} {s t : State} (h : Completes i s t) (hr : s.run = .running)
    (hp : s.pc.toNat + (encode i).length ≤ 256) : t.pc.toNat ≤ 256 := by
  obtain ⟨-, hpc, -⟩ | ⟨-, hpc, -⟩ | ⟨a, j, -, -, hpc, -⟩ | ⟨hw, -, -, -, -, -, hadv, -⟩ := h.pc_cases hr hp
  · rw [hpc]
    omega
  · rw [hpc]
    exact (BitVec.isLt _).le
  · rw [hpc]
    exact (BitVec.isLt _).le
  · rw [encode_length, if_pos hw] at hp
    rwa [hadv]

/-- A cycle never moves `pc` past the sentinel (spec/10_state.md R15). -/
theorem step_pc_le_sentinel {s t : State} (hr : s.run = .running) (hs : step s = .next t) : t.pc.toNat ≤ 256 := by
  obtain ⟨hne, -⟩ | ⟨-, -, i, hc, ht⟩ | ⟨-, hp, c, -, rfl, -⟩ := step_next_cases hs
  · exact absurd hr hne
  · exact ht.pc_le_sentinel hr hc.1
  · exact Nat.le_succ_of_le hp

/-- Settles O11: a terminal state stays, fault entry writes the record, and a completed instruction keeps memory canonical
and reaches 256 exactly at the end of memory. -/
theorem stepKeepsInvariant : Obligations.StepKeepsInvariant := by
  intro s t h hs
  obtain ⟨-, rfl⟩ | ⟨hr, hp, i, hc, ht⟩ | ⟨hr, hp, c, -, rfl, -⟩ := step_next_cases hs
  · exact h
  · obtain ⟨hm, -, hf⟩ := h.of_running hr
    exact State.inv_of_no_record (ht.memCanonical hm) (step_pc_le_sentinel hr hs)
      (endOfMemoryIsTheSentinel s t hr hp hs).1.symm (ht.fault_eq.trans hf) (ht.run_ne_faulted hr hc.1)
  · exact State.inv_of_fault_entry c h.memCanonical hp

/-- Settles O9: a cycle completes or enters Faulted, and both are next states. -/
theorem runningEngineAlwaysHasNextCycle : Obligations.RunningEngineAlwaysHasNextCycle := by
  intro s hr hp
  obtain ⟨i, t, -, -, hs⟩ | ⟨c, hs, -⟩ := step_cases hr hp
  · exact ⟨t, hs⟩
  · exact ⟨_, hs.trans (raise_eq c hp)⟩

/-- A step request is answered wherever Running implies `pc` at most 255 (spec/10_state.md R15). -/
theorem exists_step_next {s : State} (h : s.run = .running → s.pc.toNat ≤ 255) : ∃ t, step s = .next t := by
  by_cases hr : s.run = .running
  · exact runningEngineAlwaysHasNextCycle s hr (h hr)
  · exact ⟨s, step_terminal hr⟩

/-- Settles O10: every step from a state that meets the invariant is answered with one that meets it. -/
theorem runsNeverGetStuck : Obligations.RunsNeverGetStuck := by
  intro s k h
  induction k generalizing s with
  | zero => exact ⟨s, rfl, h⟩
  | succ k ih =>
    obtain ⟨t, hs⟩ := exists_step_next h.pcInside
    rw [runFor_succ_of_next k hs]
    exact ih t (stepKeepsInvariant s t h hs)

/-! ### Reset and launch -/

/-- Launch starts a run: the engine is Running at 0 and holds no record. -/
theorem State.launch_inv (regs : Vector Byte 8) (image : Vector Byte 256) : (State.launch regs image).Inv :=
  (State.inv_iff_of_running_or_halted (.inl rfl)).mpr ⟨Memory.wf_load _ 0 Memory.wf_nil, Nat.zero_le _, rfl⟩

/-- The loader puts byte `a` of the image at address `a` (spec/70_reset_and_hazards.md R171). -/
theorem State.launch_readByte (regs : Vector Byte 8) (image : Vector Byte 256) (a : Nat) (h : a < 256) :
    (State.launch regs image).readByte a = image[a] := by
  have hload := Memory.byteAt_load image.toList [] 0 a h
  rw [dif_pos ⟨Nat.zero_le a, by simpa using h⟩] at hload
  simpa [State.readByte, State.launch] using hload

/-- Settles O14: the load port's law for memory, the reset values for the rest. -/
theorem launchLoadsTheImage : Obligations.LaunchLoadsTheImage := by
  intro image regs s
  exact ⟨State.launch_readByte regs image, fun _ => rfl, State.launch_inv regs image, rfl, rfl, rfl, rfl, rfl, rfl⟩

/-- Settles O12: after reset the engine is Running at 0 with blank memory and no record. -/
theorem resetMeetsInvariant : Obligations.ResetMeetsInvariant :=
  (State.inv_iff_of_running_or_halted (.inl rfl)).mpr ⟨Memory.wf_nil, Nat.zero_le _, rfl⟩

/-- Settles O13: the fields of the reset state, every register being the one default and every cell unlisted. -/
theorem resetStateIsAsTheTableSays : Obligations.ResetStateIsAsTheTableSays :=
  ⟨rfl, rfl, rfl, rfl, rfl, fun i => by simp [State.reg, State.reset], Memory.byteAt_nil⟩

end Sys2Proof.Machine

namespace Sys2Proof.Machine

/-! ### Fetch, the bounds check, and the reserved names -/

/-- Settles O4: the case of a step in which the bytes decode. -/
theorem stepRunsDecodedInstruction : Obligations.StepRunsDecodedInstruction := by
  intro s i rest hr hd
  exact step_decoded hr hd

/-- The fetch window is a function of `pc` and the three bytes there. -/
theorem codeWindow_congr {s t : State} (hpc : s.pc = t.pc)
    (hbytes : ∀ k : Nat, k < 3 → s.readByte (s.pc.toNat + k) = t.readByte (s.pc.toNat + k)) :
    codeWindow s = codeWindow t := by
  unfold codeWindow
  rw [← hpc]
  refine List.map_congr_left fun a ha => ?_
  have hmem : a = s.pc.toNat + 0 ∨ a = s.pc.toNat + 1 ∨ a = s.pc.toNat + 2 := by
    simpa using List.mem_of_mem_filter ha
  obtain rfl | rfl | rfl := hmem <;> exact hbytes _ (by decide)

/-- Settles O42: fetch decodes the window and nothing else. -/
theorem fetchSeesOnlyTheBytesAtPc : Obligations.FetchSeesOnlyTheBytesAtPc := by
  intro s t hpc hbytes
  exact congrArg decode (codeWindow_congr hpc hbytes)

/-- The bounds check answers `a` exactly for the number `a`. -/
theorem checkAddr_eq_ok_iff {site : Site} {v : Int} {a : Addr} : checkAddr site v = .ok a ↔ (a.toNat : Int) = v := by
  constructor
  · intro h
    exact (checkAddr_ok h).2.2
  · intro h
    have ha := a.isLt
    obtain ⟨b, hb, hv⟩ := checkAddr_inside (site := site) (v := v) (by omega) (by omega)
    obtain rfl : b = a := BitVec.eq_of_toNat_eq (by omega)
    exact hb

/-- Settles O43: inside 0 to 255 the check answers the number, outside it names it. -/
theorem boundsCheckNeverWraps : Obligations.BoundsCheckNeverWraps := by
  intro site v
  exact ⟨fun a => checkAddr_eq_ok_iff, checkAddr_outside, fun h => (checkAddr_error h).1⟩

/-- Settles O7: none of the seven is wired, and what is not wired raises its fault. -/
theorem reservedNamesRaiseUnsupportedInstruction : Obligations.ReservedNamesRaiseUnsupportedInstruction := by
  intro s i hp hi
  have hw : i.wired = false := by rcases hi with rfl | rfl | rfl | rfl | rfl | rfl | rfl <;> rfl
  exact exec_reserved s hw ▸ raise_raises _ hp

/-- Settles O8: a terminal state steps to itself, by induction on the number of requests. -/
theorem terminalStatesAreAbsorbing : Obligations.TerminalStatesAreAbsorbing := by
  intro s k h
  exact runFor_terminal h k

/-! ### The four sites of `MemoryOutOfRange` -/

/-- The checks of an instruction that answer `MemoryOutOfRange`: the three of the stack and of the return address
(spec/60_exceptions.md R142). -/
theorem FaultsWith.memoryOutOfRange_cases {i : Instr} {s : State} {site : Site} {v : Int}
    (h : FaultsWith i s (.memoryOutOfRange site v)) :
    (site = .stackPush ∧ v = 256 ∧ s.sp.toNat = 255 ∧ (i.opcode = 0x45#8 ∨ i.opcode = 0x50#8)) ∨
    (site = .returnAddress ∧ v = (s.pc.toNat : Int) + 2 ∧ 254 ≤ s.pc.toNat ∧ ∃ a, i = .call a) ∨
    (site = .stackPop ∧ v = -1 ∧ s.sp.toNat = 0 ∧ (i.opcode = 0x46#8 ∨ i.opcode = 0x11#8)) := by
  cases h with
  | pushFull _ a j ha hs => exact .inl ⟨rfl, rfl, hs, .inl rfl⟩
  | callFull _ a j ha hs => exact .inl ⟨rfl, rfl, hs, .inr rfl⟩
  | callReturn _ a j ha hs hp => exact .inr (.inl ⟨rfl, rfl, hp, a, rfl⟩)
  | popEmpty _ a j ha hs => exact .inr (.inr ⟨rfl, rfl, hs, .inl rfl⟩)
  | retEmpty _ hs => exact .inr (.inr ⟨rfl, rfl, hs, .inr rfl⟩)

/-- Settles O17: the faults of an instruction's own checks, and the missing operand byte of a wired opcode. -/
theorem memoryOutOfRangeComesFromFourSites : Obligations.MemoryOutOfRangeComesFromFourSites := by
  intro s t r site v hr hs hrun hrec hcause
  obtain ⟨hne, -⟩ | ⟨-, -, i, hc, ht⟩ | ⟨-, hp, c, -, rfl, hwhy⟩ := step_next_cases hs
  · exact absurd hr hne
  · exact absurd hrun (ht.run_ne_faulted hr hc.1)
  · obtain rfl := Option.some.inj hrec
    obtain rfl : c = .memoryOutOfRange site v := hcause
    obtain ⟨i, hc, hf⟩ | ⟨hsite, hw, hn⟩ | ⟨hother, -⟩ := hwhy
    · have hop := (opcodeAt_of_codeAt hc).2
      obtain ⟨rfl, rfl, hsp, hi⟩ | ⟨rfl, rfl, hpc, a, rfl⟩ | ⟨rfl, rfl, hsp, hi⟩ := hf.memoryOutOfRange_cases
      · exact ⟨rfl, hsp, hop ▸ hi⟩
      · have hlast : s.pc.toNat = 254 := le_antisymm (codeAt_two hc).1 hpc
        exact ⟨by omega, hlast, hop⟩
      · exact ⟨rfl, hsp, hop ▸ hi⟩
    · cases hsite
      exact ⟨rfl, hw, by show 1 ≤ operandCount (s.readByte s.pc.toNat); omega, hn⟩
    · cases hother

/-! ### Two instructions one after another -/

theorem CodeAt.of_append_left {s : State} {xs ys : List Byte} (h : CodeAt s (xs ++ ys)) : CodeAt s xs := by
  obtain ⟨hl, hb⟩ := h
  rw [List.length_append] at hl
  refine ⟨by omega, fun k hk => ?_⟩
  rw [hb k (by rw [List.length_append]; omega), List.getElem_append_left hk]

/-- The code behind an instruction is the code at `pc` once `pc` has moved past it, where no byte of it was written. -/
theorem CodeAt.of_append_right {s t : State} {xs ys : List Byte} (h : CodeAt s (xs ++ ys))
    (hpc : t.pc.toNat = s.pc.toNat + xs.length)
    (hkept : ∀ k, k < ys.length → t.readByte (t.pc.toNat + k) = s.readByte (t.pc.toNat + k)) : CodeAt t ys := by
  obtain ⟨hl, hb⟩ := h
  rw [List.length_append] at hl
  refine ⟨by omega, fun k hk => ?_⟩
  rw [hkept k hk, hpc, Nat.add_assoc, hb (xs.length + k) (by rw [List.length_append]; omega),
    List.getElem_append_right (by omega)]
  simp

/-- Two advances are one by the sum of the lengths. -/
theorem AdvancedBy.trans {s t u : State} {m n : Nat} (h : AdvancedBy s t m) (h' : AdvancedBy t u n) :
    AdvancedBy s u (m + n) := by
  obtain ⟨hpc, -⟩ := h
  obtain ⟨hpc', hrun'⟩ := h'
  rw [hpc, Nat.add_assoc] at hpc' hrun'
  exact ⟨hpc', hrun'⟩

/-- Settles O23: PUSH's effect, then POP's on the state it leaves, whose code the push did not touch. -/
theorem pushThenPopRestores : Obligations.PushThenPopRestores := by
  intro s a c i j hr hcode ha hc hroom hkept₂ hkept₃
  have hpush : CodeAt s (encode (.push a)) := hcode.of_append_left (xs := [0x45#8, a]) (ys := [0x46#8, c])
  have hlen : s.pc.toNat + 4 ≤ 256 := hcode.1
  obtain ⟨t, hexec, hsp, hcell, hmem, hregs, hout, hfault, hadv⟩ := execPush_completes ⟨hr, by omega⟩ ha hroom
  have ⟨hpc, hrun⟩ := hadv
  rw [if_neg (by omega)] at hrun
  have hpop : CodeAt t (encode (.pop c)) := by
    refine hcode.of_append_right (xs := [0x45#8, a]) (ys := [0x46#8, c]) hpc fun k hk => hmem _ ?_
    have : k < 2 := hk
    omega
  obtain ⟨u, hexec', hval, hsp', hregs', hmem', hout', hfault', hadv'⟩ :=
    execPop_completes (a := c) ⟨hrun, by omega⟩ hc (by omega)
  refine ⟨u, ?_, ?_, ?_, ?_, ?_, ?_, hout'.trans hout, hfault'.trans hfault, hadv.trans hadv'⟩
  · rw [runFor_succ_of_next 1 ((step_of_codeAt hr hpush).trans hexec),
      runFor_succ_of_next 0 ((step_of_codeAt hrun hpop).trans hexec'), runFor_zero]
  · rw [hval, hsp, hcell]
  · exact fun k hk => (hregs' k hk).trans (hregs k)
  · exact BitVec.eq_of_toNat_eq (by omega)
  · rw [hmem', hcell]
  · exact fun b hb => (hmem' b).trans (hmem b hb)

/-- Settles O26: CALL's effect, then RET's on the state it leaves, which pops what CALL pushed. -/
theorem callThenRetRoundTrip : Obligations.CallThenRetRoundTrip := by
  intro s a i hr hcode ha hpc hroom
  obtain ⟨t, hexec, hjump, hsp, hcell, hmem, hregs, hout, hfault, hrun⟩ :=
    execCall_completes ⟨hr, by omega⟩ ha hroom hpc
  refine ⟨t, (step_of_codeAt (i := .call a) hr hcode).trans hexec, fun hret => ?_⟩
  have htarget : t.pc.toNat + 1 ≤ 256 := hjump ▸ (s.reg i).isLt
  have hcode' : CodeAt t (encode .ret) := by
    refine ⟨htarget, fun k hk => ?_⟩
    obtain rfl : k = 0 := Nat.lt_one_iff.mp hk
    rw [hjump]
    exact hret
  obtain ⟨u, hexec', hback, hsp', hregs', hmem', hout', hfault', hrun'⟩ :=
    execRet_completes (s := t) ⟨hrun, by omega⟩ (by omega)
  refine ⟨u, (step_of_codeAt hrun hcode').trans hexec', ?_, ?_, ?_, ?_, ?_, hout'.trans hout, hfault'.trans hfault, hrun'⟩
  · rw [hback, hsp, hcell]
  · exact BitVec.eq_of_toNat_eq (by omega)
  · rw [hmem', hcell]
  · exact fun b hb => (hmem' b).trans (hmem b hb)
  · exact fun j => (hregs' j).trans (hregs j)

/-! ### Laws of the ALU -/

/-- A divisor that is not zero divides itself once. -/
theorem aluDiv_self {u : Byte} (h : u ≠ 0#8) : aluDiv u u = 1#8 := by
  have hpos : 0 < u.toNat := Nat.pos_of_ne_zero fun hz => h (BitVec.eq_of_toNat_eq hz)
  apply BitVec.eq_of_toNat_eq
  rw [aluDiv_toNat, Nat.div_self hpos]
  rfl

/-- Settles O32: the shared effect of the ALU with one register as both operands. -/
theorem sameRegisterAsBothOperands : Obligations.SameRegisterAsBothOperands := by
  intro s a i hR ha
  obtain ⟨t₁, h₁, hadd, -⟩ := isAluInstr_add.exec_completes hR ha ha rfl
  obtain ⟨t₂, h₂, hsub, -⟩ := isAluInstr_sub.exec_completes hR ha ha rfl
  obtain ⟨t₃, h₃, hmul, -⟩ := isAluInstr_mul.exec_completes hR ha ha rfl
  obtain ⟨t₄, h₄, hand, -⟩ := isAluInstr_and.exec_completes hR ha ha rfl
  refine ⟨⟨t₁, h₁, ?_⟩, ⟨t₂, h₂, ?_⟩, ⟨t₃, h₃, ?_⟩, fun hz => ?_, fun hz => ?_, ⟨t₄, h₄, ?_⟩⟩
  · rw [hadd, aluAdd_toNat, Nat.two_mul]
  · rw [hsub]
    exact BitVec.sub_self _
  · rw [hmul, aluMul_toNat, Nat.pow_two]
  · obtain ⟨t, h, hdiv, -⟩ := isAluInstr_div.exec_completes hR ha ha (divisorCheck_nonzero hz)
    exact ⟨t, h, hdiv.trans (aluDiv_self hz)⟩
  · exact isAluInstr_div.exec_raises_check hR ha ha (divisorCheck_zero hz)
  · rw [hand]
    exact BitVec.and_self

/-- Settles O33: wrapping a sum, a difference or a product to eight bits forgets the sign of the readings. -/
theorem wrappingResultsAreSignless : Obligations.WrappingResultsAreSignless := by
  intro u v
  refine ⟨?_, ?_, ?_⟩
  · rw [aluAdd, BitVec.ofInt_add, BitVec.ofInt_toInt, BitVec.ofInt_toInt]
  · rw [aluSub, BitVec.sub_eq_add_neg, Int.sub_eq_add_neg, BitVec.ofInt_add, BitVec.ofInt_neg, BitVec.ofInt_toInt,
      BitVec.ofInt_toInt]
  · rw [aluMul, BitVec.ofInt_mul, BitVec.ofInt_toInt, BitVec.ofInt_toInt]

/-- Settles O46: the fault of every check that could fail is ruled out by a hypothesis, so the instruction completes. -/
theorem wellFormedInstructionsComplete : Obligations.WellFormedInstructionsComplete := by
  intro i s hwf hr hp hroom hcell hret hdiv
  simp only [Instr.wellFormed, Bool.and_eq_true, Instr.registersLegal, List.all_eq_true, decide_eq_true_eq] at hwf
  obtain ⟨hw, hlegal⟩ := hwf
  obtain ⟨t, ht, hs⟩ | ⟨c, hf, -⟩ := exec_cases i s
  · exact ⟨t, hs, ht.run_ne_faulted hr hp, ht.fault_eq⟩
  · exfalso
    cases hf with
    | reserved _ _ h => simp [h] at hw
    | indexA _ _ a more hi h => exact absurd (hlegal a (by simp [hi])) (by omega)
    | indexB _ _ a b hi _ h => exact absurd (hlegal b (by simp [hi])) (by omega)
    | divisor _ a b j k _ hb hz => exact hdiv a b k rfl hb hz
    | pushFull _ a _ _ h => exact absurd (hroom a (.inl rfl)) (by omega)
    | callFull _ a _ _ h => exact absurd (hroom a (.inr rfl)) (by omega)
    | callReturn _ a _ _ _ h => exact absurd (hret a rfl) (by omega)
    | popEmpty _ a _ _ h => exact absurd (hcell a (.inl rfl)) (by omega)
    | retEmpty _ h => exact absurd (hcell 0#8 (.inr rfl)) (by omega)

end Sys2Proof.Machine

namespace Sys2Proof.Machine

/-! ### What a step leaves unchanged -/

/-- A step leaves registers, memory, `pc`, `sp` and output alone, or it is a Running engine's completed instruction. -/
theorem step_frame_cases {s t : State} (hs : step s = .next t) :
    (SameRegs s t ∧ SameMem s t ∧ t.pc = s.pc ∧ t.sp = s.sp ∧ t.out = s.out) ∨
    (s.run = .running ∧ ∃ i, CodeAt s (encode i) ∧ Completes i s t) := by
  obtain ⟨-, rfl⟩ | ⟨hr, -, hi⟩ | ⟨-, -, c, -, rfl, -⟩ := step_next_cases hs
  · exact .inl ⟨fun _ => rfl, fun _ => rfl, rfl, rfl, rfl⟩
  · exact .inr ⟨hr, hi⟩
  · exact .inl ⟨fun _ => rfl, fun _ => rfl, rfl, rfl, rfl⟩

/-- The opcode byte at `pc` is the one of the instruction that stands there. -/
theorem opcodeAt_iff_of_codeAt {s : State} {i : Instr} (hc : CodeAt s (encode i)) {op : Byte} :
    OpcodeAt s op ↔ i.opcode = op := by
  obtain ⟨hp, hop⟩ := opcodeAt_of_codeAt hc
  exact ⟨fun h => hop.symm.trans h.2, fun h => ⟨hp, hop.trans h⟩⟩

/-! ### The output -/

/-- Of the completed instructions only PRN changes the output (spec/41_data_output_halt.md R91). -/
theorem Completes.out_cases {i : Instr} {s t : State} (h : Completes i s t) :
    t.out = s.out ∨ ∃ a j, i = .prn a ∧ Names a j ∧ t.out = s.out ++ [s.reg j] := by
  cases h with
  | prn _ a j ha => exact .inr ⟨a, j, rfl, ha, rfl⟩
  | _ => exact .inl rfl

theorem step_out_cases {s t : State} (hs : step s = .next t) : t.out = s.out ∨
    (s.run = .running ∧ OpcodeAt s 0x47#8 ∧ ∃ i, Names (s.readByte (s.pc.toNat + 1)) i ∧ t.out = s.out ++ [s.reg i]) := by
  obtain ⟨-, -, -, -, hout⟩ | ⟨hr, i, hc, ht⟩ := step_frame_cases hs
  · exact .inl hout
  · obtain hout | ⟨a, j, rfl, ha, hout⟩ := ht.out_cases
    · exact .inl hout
    · exact .inr ⟨hr, opcodeAt_of_codeAt hc, j, (operandA_of_codeAt hc rfl).symm ▸ ha, hout⟩

/-- A run of `k` steps appends at most `k` bytes to the output. -/
theorem runFor_out_appends {s t : State} {k : Nat} (h : runFor k s = .next t) :
    ∃ l, t.out = s.out ++ l ∧ l.length ≤ k := by
  induction k generalizing s with
  | zero =>
    cases h
    exact ⟨[], by simp, le_rfl⟩
  | succ k ih =>
    obtain ⟨u, hs, hk⟩ := runFor_succ_next h
    obtain ⟨l, hl, hlen⟩ := ih hk
    obtain hout | ⟨-, -, i, -, hout⟩ := step_out_cases hs
    · exact ⟨l, by rw [hl, hout], by omega⟩
    · exact ⟨s.reg i :: l, by rw [hl, hout, List.append_assoc, List.singleton_append], Nat.succ_le_succ hlen⟩

/-- Settles O34: PRN's effect for one step, induction on the number of steps for a run. -/
theorem onlyPrnAppendsToOutput : Obligations.OnlyPrnAppendsToOutput :=
  ⟨fun _ _ => step_out_cases, fun _ _ _ => runFor_out_appends⟩

/-! ### Nothing reads the output

The state with bytes put in front of its output runs the same way; each operation of a cycle commutes with that change. -/

/-- The state with `before` put in front of its output. -/
def State.prependOut (before : List Byte) (s : State) : State := { s with out := before ++ s.out }

/-- An outcome with a change made to its next state, if it has one. -/
def mapNext (g : State → State) : Result → Result
  | .next t => .next (g t)
  | .fault f => .fault f
  | .refused r => .refused r

theorem raise_prependOut (before : List Byte) (c : Cause) (s : State) :
    raise c (s.prependOut before) = mapNext (State.prependOut before) (raise c s) := by
  by_cases hp : s.pc.toNat ≤ 255
  · rw [raise_eq c hp]
    exact raise_eq c (s := s.prependOut before) hp
  · have hout : 256 ≤ s.pc.toNat := Nat.lt_of_not_le hp
    rw [raise_outside c hout]
    exact raise_outside c (s := s.prependOut before) hout

theorem orRaise_prependOut {α : Type} (before : List Byte) (e : Except Cause α) (s : State) {k k' : α → Result}
    (hk : ∀ v, k' v = mapNext (State.prependOut before) (k v)) :
    orRaise e (s.prependOut before) k' = mapNext (State.prependOut before) (orRaise e s k) := by
  cases e with
  | ok v => exact hk v
  | error c => exact raise_prependOut before c s

/-- The checks of an ALU instruction read registers only, and its effect writes one (spec/44_alu.md R120). -/
theorem aluFrame_prependOut (before : List Byte) {op : Byte} {check : State → RegIndex → RegIndex → Except Cause Unit}
    (hcheck : ∀ s i j, check (s.prependOut before) i j = check s i j) (f : Byte → Byte → Byte) (a b : Byte) (s : State) :
    aluFrame op check f a b (s.prependOut before) = mapNext (State.prependOut before) (aluFrame op check f a b s) :=
  orRaise_prependOut before _ s fun i => orRaise_prependOut before _ s fun j => by
    rw [hcheck]
    exact orRaise_prependOut before _ s fun _ => rfl

/-- A byte is emitted behind whatever was emitted before (spec/41_data_output_halt.md R91). -/
theorem emit_prependOut (before : List Byte) (s : State) (v : Byte) :
    (s.prependOut before).emit v = (s.emit v).prependOut before := by
  simp [State.emit, State.prependOut]

/-- An instruction does the same whatever was emitted before. -/
theorem exec_prependOut (before : List Byte) (i : Instr) (s : State) :
    exec i (s.prependOut before) = mapNext (State.prependOut before) (exec i s) := by
  cases i with
  | hlt => rfl
  | ret => exact orRaise_prependOut before _ s fun _ => rfl
  | push a => exact orRaise_prependOut before _ s fun _ => orRaise_prependOut before _ s fun _ => rfl
  | pop a => exact orRaise_prependOut before _ s fun _ => orRaise_prependOut before _ s fun _ => rfl
  | prn a =>
    exact orRaise_prependOut before _ s fun j =>
      congrArg (fun u => Host.Outcome.next (pcUpdate opPrn u)) (emit_prependOut before s (s.reg j))
  | call a =>
    exact orRaise_prependOut before _ s fun _ => orRaise_prependOut before _ s fun _ =>
      orRaise_prependOut before _ s fun _ => rfl
  | ldi a imm => exact orRaise_prependOut before _ s fun _ => rfl
  | div a b => exact aluFrame_prependOut before (fun _ _ _ => rfl) aluDiv a b s
  | add a b => exact aluFrame_prependOut before (fun _ _ _ => rfl) aluAdd a b s
  | sub a b => exact aluFrame_prependOut before (fun _ _ _ => rfl) aluSub a b s
  | mul a b => exact aluFrame_prependOut before (fun _ _ _ => rfl) aluMul a b s
  | and a b => exact aluFrame_prependOut before (fun _ _ _ => rfl) aluAnd a b s
  | cmp | dec | inc | mod | not | or | xor => exact raise_prependOut before _ s

theorem fetchFailed_prependOut (before : List Byte) (e : DecodeError) (s : State) :
    fetchFailed e (s.prependOut before) = mapNext (State.prependOut before) (fetchFailed e s) := by
  cases e with
  | noByte => rfl
  | unsupported op => exact raise_prependOut before _ s
  | operandMissing op => exact raise_prependOut before _ s

/-- A step commutes with putting bytes in front of the output: fetch does not see them, and what it leads to commutes. -/
theorem step_prependOut (before : List Byte) (s : State) :
    step (s.prependOut before) = mapNext (State.prependOut before) (step s) := by
  by_cases hr : s.run = .running
  · have hr' : (s.prependOut before).run = .running := hr
    have hw : codeWindow (s.prependOut before) = codeWindow s := rfl
    cases hd : decode (codeWindow s) with
    | ok p =>
      rw [step_decoded hr hd, step_decoded hr' (hw.symm ▸ hd)]
      exact exec_prependOut before p.1 s
    | error e =>
      rw [step_failed hr hd, step_failed hr' (hw.symm ▸ hd)]
      exact fetchFailed_prependOut before e s
  · have hr' : (s.prependOut before).run ≠ .running := hr
    rw [step_terminal hr, step_terminal hr']
    rfl

/-- Settles O35: a step commutes with putting bytes in front of the output. -/
theorem nothingReadsTheOutput : Obligations.NothingReadsTheOutput := by
  intro s t before hs
  exact (step_prependOut before s).trans (congrArg (mapNext (State.prependOut before)) hs)

/-! ### Memory, registers and the stack pointer -/

/-- Of the completed instructions only PUSH and CALL store, each at `sp + 1` (spec/42_stack.md R101;
spec/43_control_transfer.md R110). -/
theorem Completes.mem_cases {i : Instr} {s t : State} (h : Completes i s t) :
    SameMem s t ∨
    ((i.opcode = 0x45#8 ∨ i.opcode = 0x50#8) ∧ t.sp.toNat = s.sp.toNat + 1 ∧ SameMemBut s t (s.sp.toNat + 1)) := by
  cases h with
  | push _ a j slot ha h =>
    exact .inr ⟨.inl rfl, h, fun b hb => State.readByte_writeByte_other _ _ b _ (h ▸ hb)⟩
  | call _ a j slot ret ha h hr =>
    exact .inr ⟨.inr rfl, h, fun b hb => State.readByte_writeByte_other _ _ b _ (h ▸ hb)⟩
  | _ => exact .inl fun _ => rfl

/-- Settles O36: a completed PUSH or CALL stores at the new `sp`, and every other step keeps memory. -/
theorem onlyPushAndCallStore : Obligations.OnlyPushAndCallStore := by
  intro s t hs
  obtain ⟨-, hmem, -⟩ | ⟨hr, i, hc, ht⟩ := step_frame_cases hs
  · exact .inl hmem
  · have hop {op : Byte} : i.opcode = op → OpcodeAt s op := (opcodeAt_iff_of_codeAt hc).mpr
    have hsp := t.sp.isLt
    exact ht.mem_cases.imp_right fun ⟨hi, hup, hbut⟩ =>
      ⟨hr, hi.imp hop hop, by omega, hup, hbut⟩

/-- A completed instruction keeps every register but the one operand A names, and that one too unless it is LDI, POP or of
the ALU (spec/10_state.md R13). -/
theorem Completes.reg_cases {i : Instr} {s t : State} (h : Completes i s t) :
    SameRegs s t ∨
    (i.opcode ∈ [0x82#8, 0x46#8, 0xA0#8, 0xA1#8, 0xA2#8, 0xA3#8, 0xA8#8] ∧
      ∃ a more j, i.operands = a :: more ∧ Names a j ∧ SameRegsBut s t j) := by
  cases h with
  | hlt | ret | push | prn | call => exact .inl fun _ => rfl
  | pop _ _ j _ ha _ | ldi _ _ _ j ha | add _ _ _ j _ ha _ | sub _ _ _ j _ ha _ | mul _ _ _ j _ ha _ | div _ _ _ j _ ha _ _
  | and _ _ _ j _ ha _ =>
    exact .inr ⟨by simp [Instr.opcode], _, _, j, rfl, ha, fun k hk => State.reg_setReg_other _ j k _ hk⟩

/-- Settles O37: the register a completed instruction writes is the one its first operand byte names. -/
theorem onlyNamedRegisterIsWritten : Obligations.OnlyNamedRegisterIsWritten := by
  intro s t j hs hne
  obtain ⟨hregs, -⟩ | ⟨hr, i, hc, ht⟩ := step_frame_cases hs
  · exact absurd (hregs j) hne
  · obtain hregs | ⟨hi, a, more, k, ho, ha, hbut⟩ := ht.reg_cases
    · exact absurd (hregs j) hne
    · obtain rfl : j = k := by
        by_contra hjk
        exact hne (hbut j hjk)
      exact ⟨hr, (operandA_of_codeAt hc ho).symm ▸ ha, (opcodeAt_of_codeAt hc).2.symm ▸ hi⟩

/-- A completed instruction moves `sp` up by one when it pushes, down by one when it pops, and not otherwise
(spec/10_state.md R16, R17). -/
theorem Completes.sp_cases {i : Instr} {s t : State} (h : Completes i s t) :
    t.sp = s.sp ∨
    ((i.opcode = 0x45#8 ∨ i.opcode = 0x50#8) ∧ t.sp.toNat = s.sp.toNat + 1) ∨
    ((i.opcode = 0x46#8 ∨ i.opcode = 0x11#8) ∧ t.sp.toNat + 1 = s.sp.toNat) := by
  cases h with
  | push _ _ _ _ _ h => exact .inr (.inl ⟨.inl rfl, h⟩)
  | call _ _ _ _ _ _ h _ => exact .inr (.inl ⟨.inr rfl, h⟩)
  | pop _ _ _ _ _ h => exact .inr (.inr ⟨.inl rfl, h⟩)
  | ret _ _ h => exact .inr (.inr ⟨.inr rfl, h⟩)
  | _ => exact .inl rfl

/-- Settles O38: only a completed push or pop moves `sp`. -/
theorem stackPointerMovesByOne : Obligations.StackPointerMovesByOne := by
  intro s t hs
  obtain ⟨-, -, -, hsp, -⟩ | ⟨hr, i, hc, ht⟩ := step_frame_cases hs
  · exact .inl hsp
  · have hop {op : Byte} : i.opcode = op → OpcodeAt s op := (opcodeAt_iff_of_codeAt hc).mpr
    exact ht.sp_cases.imp_right (Or.imp (fun ⟨hi, hup⟩ => ⟨hr, hi.imp hop hop, hup⟩)
      fun ⟨hi, hdown⟩ => ⟨hr, hi.imp hop hop, hdown⟩)

/-! ### The program counter and the run state -/

theorem opcode_eq_hlt_iff {i : Instr} : i.opcode = 0x01#8 ↔ i = .hlt := by
  cases i <;> simp [Instr.opcode]

theorem opcode_eq_ret_iff {i : Instr} : i.opcode = 0x11#8 ↔ i = .ret := by
  cases i <;> simp [Instr.opcode]

theorem opcode_eq_call_iff {i : Instr} : i.opcode = 0x50#8 ↔ ∃ a, i = .call a := by
  cases i <;> simp [Instr.opcode]

/-- Settles O39: fault entry leaves `pc`, and a completed instruction moves it as its opcode says. -/
theorem pcIsUpdatedByItsOpcode : Obligations.PcIsUpdatedByItsOpcode := by
  intro s t hr hp hs
  obtain ⟨hne, -⟩ | ⟨-, -, i, hc, ht⟩ | ⟨-, -, c, -, rfl, -⟩ := step_next_cases hs
  · exact absurd hr hne
  · refine ⟨fun hf => absurd hf (ht.run_ne_faulted hr hc.1), ?_⟩
    rw [opcodeAt_iff_of_codeAt hc, opcodeAt_iff_of_codeAt hc, opcodeAt_iff_of_codeAt hc, opcode_eq_hlt_iff,
      opcode_eq_ret_iff, opcode_eq_call_iff, (opcodeAt_of_codeAt hc).2]
    obtain ⟨rfl, hpc, -⟩ | ⟨rfl, hpc, -⟩ | ⟨a, j, rfl, ha, hpc, -⟩ | ⟨-, hhlt, hret, hcall, -, -, hadv, -⟩ :=
      ht.pc_cases hr hc.1
    · simp [hpc]
    · simp [hpc]
    · have hnames : Names (s.readByte (s.pc.toNat + 1)) j := (operandA_of_codeAt hc rfl).symm ▸ ha
      simpa using fun _ => ⟨j, hnames, hpc⟩
    · exact ⟨fun _ h => absurd h hhlt, fun _ ⟨a, h⟩ => absurd h (hcall a), fun _ h => absurd h hret,
        fun _ _ _ _ => hadv⟩
  · exact ⟨fun _ => rfl, fun h => absurd rfl h, fun h => absurd rfl h, fun h => absurd rfl h, fun h => absurd rfl h⟩

/-- A completed instruction halts the engine exactly when it is HLT (spec/10_state.md R18). -/
theorem Completes.halted_iff {i : Instr} {s t : State} (h : Completes i s t) (hr : s.run = .running)
    (hp : s.pc.toNat + (encode i).length ≤ 256) : t.run = .halted ↔ i = .hlt := by
  obtain ⟨rfl, -, hrun⟩ | ⟨rfl, -, hrun⟩ | ⟨a, j, rfl, -, -, hrun⟩ | ⟨-, hhlt, -, -, -, -, -, hrun⟩ := h.pc_cases hr hp
  · simp [hrun]
  · simp [hrun]
  · simp [hrun]
  · refine iff_of_false ?_ hhlt
    rw [hrun]
    split <;> simp

/-- HLT has no check to fail (spec/41_data_output_halt.md R92). -/
theorem step_of_hlt {s : State} (hr : s.run = .running) (ho : OpcodeAt s 0x01#8) :
    step s = .next { s with run := .halted } := by
  obtain ⟨hp, hop⟩ := ho
  refine (step_of_codeAt (i := .hlt) hr ⟨Nat.succ_le_succ hp, fun k hk => ?_⟩).trans (execHlt_eq s)
  obtain rfl : k = 0 := Nat.lt_one_iff.mp hk
  exact hop

/-- Settles O41: a completed instruction halts exactly when it is HLT and writes no record, and a HLT never faults. -/
theorem terminalRunStatesAreEnteredAsListed : Obligations.TerminalRunStatesAreEnteredAsListed := by
  intro s t hr hp hnone hs
  have hend := (endOfMemoryIsTheSentinel s t hr hp hs).1
  obtain ⟨hne, -⟩ | ⟨-, -, i, hc, ht⟩ | ⟨-, -, c, -, rfl, -⟩ := step_next_cases hs
  · exact absurd hr hne
  · refine ⟨?_, iff_of_false (ht.run_ne_faulted hr hc.1) (by simp [ht.fault_eq, hnone]), hend⟩
    rw [ht.halted_iff hr hc.1, opcodeAt_iff_of_codeAt hc, opcode_eq_hlt_iff]
  · refine ⟨iff_of_false (by simp) fun ho => ?_, iff_of_true rfl rfl, hend⟩
    injection (step_of_hlt hr ho).symm.trans hs with heq
    simpa using congrArg State.run heq

end Sys2Proof.Machine

namespace Sys2Proof.Machine

/-! ### Canonical memories -/

theorem Memory.wfFrom_cons {lo a : Nat} {v : Byte} {m : Memory} : Memory.wfFrom lo ((a, v) :: m) = true ↔
    lo ≤ a ∧ a < 256 ∧ v ≠ Config.blankByte ∧ Memory.wfFrom (a + 1) m = true := by
  simp [Memory.wfFrom, and_assoc]

/-- A canonical memory reads blank below its first entry. -/
theorem Memory.byteAt_below {lo a : Nat} {m : Memory} (h : Memory.wfFrom lo m = true) (ha : a < lo) :
    m.byteAt a = Config.blankByte := by
  induction m generalizing lo with
  | nil => rfl
  | cons c rest ih =>
    obtain ⟨k, w⟩ := c
    obtain ⟨hlo, -, -, hrest⟩ := Memory.wfFrom_cons.mp h
    rw [Memory.byteAt_cons, if_neg (by omega)]
    exact ih hrest (by omega)

theorem Memory.byteAt_head (a : Nat) (v : Byte) (m : Memory) : Memory.byteAt ((a, v) :: m) a = v := if_pos rfl

/-- The first entry of a canonical memory is at the lowest address that does not read blank. -/
theorem Memory.head_le_of_byteAt_eq {lo lo' a b : Nat} {v w : Byte} {m m' : Memory}
    (h : Memory.wfFrom lo ((a, v) :: m) = true) (h' : Memory.wfFrom lo' ((b, w) :: m') = true)
    (heq : ∀ k, Memory.byteAt ((a, v) :: m) k = Memory.byteAt ((b, w) :: m') k) : b ≤ a := by
  obtain ⟨-, -, hv, -⟩ := Memory.wfFrom_cons.mp h
  obtain ⟨-, hb, hw, hm'⟩ := Memory.wfFrom_cons.mp h'
  by_contra hlt
  have hfrom : Memory.wfFrom b ((b, w) :: m') = true := Memory.wfFrom_cons.mpr ⟨le_rfl, hb, hw, hm'⟩
  have hread := heq a
  rw [Memory.byteAt_head, Memory.byteAt_below hfrom (Nat.lt_of_not_le hlt)] at hread
  exact hv hread

/-- A canonical memory with an entry does not read blank everywhere. -/
theorem Memory.exists_byteAt_ne_blank {lo : Nat} {c : Host.Cell} {m : Memory} (h : Memory.wfFrom lo (c :: m) = true) :
    ∃ k, Memory.byteAt (c :: m) k ≠ Config.blankByte := by
  obtain ⟨a, v⟩ := c
  obtain ⟨-, -, hv, -⟩ := Memory.wfFrom_cons.mp h
  exact ⟨a, by rwa [Memory.byteAt_head]⟩

/-- Canonical memories that read the same are equal, wherever their entries start. -/
theorem Memory.eq_of_byteAt_eq {lo lo' : Nat} {m m' : Memory} (h : Memory.wfFrom lo m = true)
    (h' : Memory.wfFrom lo' m' = true) (heq : ∀ k, m.byteAt k = m'.byteAt k) : m = m' := by
  induction m generalizing lo lo' m' with
  | nil =>
    cases m' with
    | nil => rfl
    | cons c' m' =>
      obtain ⟨k, hk⟩ := Memory.exists_byteAt_ne_blank h'
      exact absurd (heq k).symm hk
  | cons c m ih =>
    cases m' with
    | nil =>
      obtain ⟨k, hk⟩ := Memory.exists_byteAt_ne_blank h
      exact absurd (heq k) hk
    | cons c' m' =>
      obtain ⟨a, v⟩ := c
      obtain ⟨b, w⟩ := c'
      obtain rfl : a = b := le_antisymm (Memory.head_le_of_byteAt_eq h' h fun k => (heq k).symm)
        (Memory.head_le_of_byteAt_eq h h' heq)
      obtain rfl : v = w := by simpa only [Memory.byteAt_head] using heq a
      obtain ⟨-, -, -, hm⟩ := Memory.wfFrom_cons.mp h
      obtain ⟨-, -, -, hm'⟩ := Memory.wfFrom_cons.mp h'
      have hrest : ∀ k, Memory.byteAt m k = Memory.byteAt m' k := by
        intro k
        by_cases hk : k = a
        · rw [Memory.byteAt_below hm (by omega), Memory.byteAt_below hm' (by omega)]
        · simpa [Memory.byteAt_cons, hk] using heq k
      rw [ih hm hm' hrest]

/-- Settles O44: the first entries are at the same address and equal, and so are the rests, by induction on the list. -/
theorem canonicalMemoriesAreEqualData : Obligations.CanonicalMemoriesAreEqualData := by
  intro m m' h h' heq
  exact Memory.eq_of_byteAt_eq h h' heq

/-! ### What a host write does -/

/-- Settles O48: the write laws of registers and cells, and the two conditions on `run` and on the record. -/
theorem hostWriteChangesOnlyItsItem : Obligations.HostWriteChangesOnlyItsItem := by
  intro s
  refine ⟨fun i v => ⟨s.reg_setReg_same i v, fun j hj => s.reg_setReg_other i j v hj, rfl⟩,
    fun a v => ⟨s.readByte_writeByte_same v a, fun b hb => s.readByte_writeByte_other v b a hb, rfl⟩,
    fun a => ⟨zext9_toNat a, rfl⟩, fun _ => rfl, fun r => ⟨fun h => ?_, fun h => ?_⟩, fun r => ⟨fun hr hf => ?_, fun h => ?_⟩,
    fun _ => rfl⟩
  · rw [hostWrite_run, if_pos h]
  · rw [hostWrite_run, if_neg h]
  · rw [hostWrite_fault, if_pos ⟨hr, hf⟩]
  · rw [hostWrite_fault, if_neg fun hboth => h.elim (absurd hboth.1) (absurd hboth.2)]

/-- Only a write of `run` stops a Running engine. -/
theorem hostWrite_keeps_running {s : State} {w : HostWrite} (hr : s.run = .running) (hw : ∀ r, w ≠ .run r) :
    (hostWrite w s).run = .running := by
  cases w with
  | run r => exact absurd rfl (hw r)
  | fault f =>
    rw [hostWrite_fault]
    split <;> exact hr
  | reg | mem | pc | sp | out => exact hr

/-- A Running engine takes no host write of the record. -/
theorem hostWrite_fault_of_running {s : State} (w : HostWrite) (hr : s.run = .running) :
    (hostWrite w s).fault = s.fault := by
  obtain h | ⟨-, hf, -⟩ := hostWrite_fault_cases s w
  · exact h
  · simp [hr] at hf

/-- A write of anything but `run` keeps the invariant of a Running engine. -/
theorem hostWrite_keeps_inv {s : State} {w : HostWrite} (h : s.Inv) (hr : s.run = .running) (hw : ∀ r, w ≠ .run r) :
    (hostWrite w s).Inv := by
  obtain ⟨hm, hp, hf⟩ := h.of_running hr
  have hr' := hostWrite_keeps_running hr hw
  exact (State.inv_iff_of_running_or_halted (.inl hr')).mpr
    ⟨hostWrite_keeps_wf s w hm, hostWrite_keeps_pcInside s w (fun _ => hp) hr', (hostWrite_fault_of_running w hr).trans hf⟩

/-- A write of `run` to a Running engine keeps the invariant exactly for Running and Halted: EndOfMemory wants `pc` at 256, and
Faulted a record. -/
theorem State.Inv.withRun_iff {s : State} (h : s.Inv) (hr : s.run = .running) (r : RunState) :
    State.Inv { s with run := r } ↔ r = .running ∨ r = .halted := by
  obtain ⟨hm, hp, hf⟩ := h.of_running hr
  constructor
  · intro h'
    cases r with
    | running => exact .inl rfl
    | halted => exact .inr rfl
    | endOfMemory =>
      have hend : s.pc.toNat = 256 := h'.sentinel.mpr rfl
      omega
    | faulted =>
      have hrec : s.fault.isSome = true := h'.faultIff.mpr rfl
      simp [hf] at hrec
  · intro hr'
    exact (State.inv_iff_of_running_or_halted hr').mpr ⟨hm, hp, hf⟩

/-- Settles O45: told apart by whether the write is one of `run`. -/
theorem hostWriteKeepsInvariant : Obligations.HostWriteKeepsInvariant := by
  intro w s h hr
  refine ⟨?_, hostWrite_keeps_running hr⟩
  by_cases hw : ∃ r, w = .run r
  · obtain ⟨r, rfl⟩ := hw
    rw [hostWrite_run, if_pos hr, h.withRun_iff hr]
    simp
  · have hne (r : RunState) : w ≠ .run r := fun e => hw ⟨r, e⟩
    exact iff_of_true (hostWrite_keeps_inv h hr hne) fun r e => absurd e (hne r)

/-! ### Which states host writes make -/

/-- What O47 says of the states `t` that host writes make from `s`. -/
def WithinHostWrites (s t : State) : Prop :=
  t.mem.wf = true ∧ (t.pc.toNat ≤ 255 ∨ t.pc = s.pc) ∧ (s.run = .running ∨ t.run = s.run) ∧
    (t.fault = s.fault ∨ (s.fault = none ∧ t.run = .faulted))

theorem hostWrite_within {s : State} (hm : s.mem.wf = true) (w : HostWrite) :
    WithinHostWrites s (hostWrite w s) := by
  refine ⟨hostWrite_keeps_wf s w hm, (hostWrite_pc_cases s w).symm, ?_, ?_⟩
  · by_cases hr : s.run = .running
    · exact .inl hr
    · exact .inr (hostWrite_keeps_terminal s w hr)
  · exact (hostWrite_fault_cases s w).imp_right fun ⟨hf, _, hr⟩ => ⟨hf, hr⟩

/-- A second change within the rules is one change within the rules: a Faulted engine stays Faulted, so a record put first
stays in place. -/
theorem WithinHostWrites.trans {s t u : State} (h : WithinHostWrites s t) (h' : WithinHostWrites t u) :
    WithinHostWrites s u := by
  obtain ⟨-, hpc, hrun, hf⟩ := h
  obtain ⟨hm', hpc', hrun', hf'⟩ := h'
  refine ⟨hm', ?_, ?_, ?_⟩
  · obtain hpc' | hpc' := hpc'
    · exact .inl hpc'
    · rwa [hpc']
  · obtain hrun | hrun := hrun
    · exact .inl hrun
    · rwa [hrun] at hrun'
  · obtain hf | ⟨hnone, hfaulted⟩ := hf
    · rwa [hf] at hf'
    · refine .inr ⟨hnone, ?_⟩
      obtain hrun' | hrun' := hrun'
      · simp [hfaulted] at hrun'
      · exact hrun'.trans hfaulted

theorem hostWrites_within (ws : List HostWrite) {s : State} (hm : s.mem.wf = true) :
    WithinHostWrites s (hostWrites ws s) := by
  induction ws generalizing s with
  | nil => exact ⟨hm, .inr rfl, .inr rfl, .inl rfl⟩
  | cons w ws ih => exact (hostWrite_within hm w).trans (ih (hostWrite_keeps_wf s w hm))

/-- Some list of host writes takes `s` to `t`. -/
def HostMakes (s t : State) : Prop := ∃ ws, hostWrites ws s = t

theorem HostMakes.refl (s : State) : HostMakes s s := ⟨[], rfl⟩

theorem HostMakes.trans {s t u : State} (h : HostMakes s t) (h' : HostMakes t u) : HostMakes s u := by
  obtain ⟨ws, rfl⟩ := h
  obtain ⟨ws', rfl⟩ := h'
  exact ⟨ws ++ ws', hostWrites_append ws ws' s⟩

theorem hostMakes_regs (s : State) (x : Vector Byte 8) : HostMakes s { s with x := x } := ⟨_, hostWrites_regs x s⟩

/-- A canonical memory is what loading its 256 bytes over any canonical memory gives. -/
theorem Memory.load_all_bytes {m m' : Memory} (h : m.wf = true) (h' : m'.wf = true) :
    m.load 0 ((List.range 256).map m'.byteAt) = m' := by
  refine canonicalMemoriesAreEqualData _ _ (Memory.wf_load _ 0 h) h' fun a => ?_
  by_cases ha : a < 256
  · rw [Memory.byteAt_load _ _ _ _ ha, dif_pos ⟨Nat.zero_le a, by simpa using ha⟩]
    simp
  · rw [Memory.byteAt_outside (Nat.le_of_not_lt ha) (Memory.wf_load _ 0 h), Memory.byteAt_outside (Nat.le_of_not_lt ha) h']

theorem hostMakes_mem {s : State} {m : Memory} (h : s.mem.wf = true) (h' : m.wf = true) :
    HostMakes s { s with mem := m } := by
  refine ⟨_, (hostWrites_mem ((List.range 256).map m.byteAt) 0 s (by simp)).trans ?_⟩
  rw [Memory.load_all_bytes h h']

/-- A program counter of 0 to 255 is the zero extension of its low byte. -/
theorem zext9_setWidth {p : Pc} (h : p.toNat ≤ 255) : zext9 (p.setWidth 8) = p := by
  apply BitVec.eq_of_toNat_eq
  rw [zext9_toNat, BitVec.toNat_setWidth]
  exact Nat.mod_eq_of_lt (Nat.lt_succ_of_le h)

theorem hostMakes_pc {s : State} {p : Pc} (h : p.toNat ≤ 255 ∨ p = s.pc) : HostMakes s { s with pc := p } := by
  obtain h | rfl := h
  · refine ⟨[.pc (p.setWidth 8)], ?_⟩
    rw [hostWrites_cons, hostWrite_pc, zext9_setWidth h, hostWrites_nil]
  · exact HostMakes.refl s

theorem hostMakes_sp (s : State) (v : Byte) : HostMakes s { s with sp := v } := ⟨[.sp v], rfl⟩

theorem hostMakes_out (s : State) (bytes : List Byte) : HostMakes s { s with out := bytes } := ⟨[.out bytes], rfl⟩

theorem hostMakes_run {s : State} {r : RunState} (h : s.run = .running ∨ r = s.run) : HostMakes s { s with run := r } := by
  obtain h | rfl := h
  · refine ⟨[.run r], ?_⟩
    rw [hostWrites_cons, hostWrite_run, if_pos h, hostWrites_nil]
  · exact HostMakes.refl s

theorem hostMakes_fault {s : State} {f : Option FaultRecord} (h : f = s.fault ∨ (s.fault = none ∧ s.run = .faulted)) :
    HostMakes s { s with fault := f } := by
  obtain rfl | ⟨hnone, hr⟩ := h
  · exact HostMakes.refl s
  · cases f with
    | none => exact hnone ▸ HostMakes.refl s
    | some r =>
      refine ⟨[.fault r], ?_⟩
      rw [hostWrites_cons, hostWrite_fault, if_pos ⟨hr, hnone⟩, hostWrites_nil]

/-- Every state within the rules is made, item by item, `run` before the record. -/
theorem HostMakes.of_withinHostWrites {s t : State} (hm : s.mem.wf = true) (h : WithinHostWrites s t) : HostMakes s t := by
  obtain ⟨hm', hpc, hrun, hf⟩ := h
  have toMem := (hostMakes_regs s t.x).trans (hostMakes_mem hm hm')
  have toPc := toMem.trans (hostMakes_pc hpc)
  have toOut := (toPc.trans (hostMakes_sp _ t.sp)).trans (hostMakes_out _ t.out)
  have toRun := toOut.trans (hostMakes_run hrun)
  exact toRun.trans (hostMakes_fault hf)

/-- Settles O47: writes keep within the rules, and every state within them is made item by item. -/
theorem hostWritesMakeExactlyTheseStates : Obligations.HostWritesMakeExactlyTheseStates := by
  intro s t hm
  constructor
  · rintro ⟨ws, rfl⟩
    exact hostWrites_within ws hm
  · exact HostMakes.of_withinHostWrites hm

/-! ### Requests -/

/-- A step request or a host write keeps a terminal run state, and a record once there is one. -/
theorem serve_keeps_terminal {s : State} {q : HostRequest} (hr : s.run ≠ .running) (hq : ∀ image, q ≠ .reset image) :
    ∃ t, serve q s = .next t ∧ t.run = s.run ∧ (s.fault ≠ none → t.fault = s.fault) := by
  cases q with
  | reset image => exact absurd rfl (hq image)
  | step => exact ⟨s, step_terminal hr, rfl, fun _ => rfl⟩
  | write w =>
    refine ⟨_, serve_write s w, hostWrite_keeps_terminal s w hr, fun hf => ?_⟩
    obtain h | ⟨hnone, -, -⟩ := hostWrite_fault_cases s w
    · exact h
    · exact absurd hnone hf

theorem serveAll_keeps_terminal {qs : List HostRequest} {s : State} (hr : s.run ≠ .running)
    (hqs : ∀ image, .reset image ∉ qs) :
    ∃ t, serveAll qs s = .next t ∧ t.run = s.run ∧ (s.fault ≠ none → t.fault = s.fault) := by
  induction qs generalizing s with
  | nil => exact ⟨s, rfl, rfl, fun _ => rfl⟩
  | cons q qs ih =>
    obtain ⟨t, hs, hrun, hf⟩ := serve_keeps_terminal hr fun image e => hqs image (e ▸ List.mem_cons_self)
    obtain ⟨u, hu, hrun', hf'⟩ := ih (hrun ▸ hr) fun image hmem => hqs image (List.mem_cons_of_mem q hmem)
    refine ⟨u, (serveAll_cons s qs hs).trans hu, hrun'.trans hrun, fun h => ?_⟩
    exact (hf' ((hf h).symm ▸ h)).trans (hf h)

/-- Settles O49: induction on the requests, and the launch state for reset. -/
theorem terminalStatesAreLeftOnlyByReset : Obligations.TerminalStatesAreLeftOnlyByReset :=
  ⟨fun _ _ => serveAll_keeps_terminal, fun image s => ⟨_, serve_reset s image, rfl, rfl⟩⟩

/-- A cycle that leaves the engine Running leaves `pc` inside memory (spec/10_state.md R15). -/
theorem step_keeps_pcInside {s t : State} (h : s.run = .running → s.pc.toNat ≤ 255) (hs : step s = .next t) :
    t.run = .running → t.pc.toNat ≤ 255 := by
  intro hrun
  by_cases hr : s.run = .running
  · have hle := step_pc_le_sentinel hr hs
    have hend : t.pc.toNat ≠ 256 := by
      intro hpc
      have := (endOfMemoryIsTheSentinel s t hr (h hr) hs).1.mpr hpc
      simp [hrun] at this
    omega
  · obtain rfl : s = t := by simpa [step_terminal hr] using hs
    exact h hrun

/-- One request is answered and keeps `pc` inside memory while Running. -/
theorem serve_keeps_pcInside {s : State} (q : HostRequest) (h : s.run = .running → s.pc.toNat ≤ 255) :
    ∃ t, serve q s = .next t ∧ (t.run = .running → t.pc.toNat ≤ 255) := by
  cases q with
  | reset image => exact ⟨_, serve_reset s image, fun _ => Nat.zero_le _⟩
  | step =>
    obtain ⟨t, hs⟩ := exists_step_next h
    exact ⟨t, hs, step_keeps_pcInside h hs⟩
  | write w => exact ⟨_, serve_write s w, hostWrite_keeps_pcInside s w h⟩

/-- Settles O50: each request is answered and keeps `pc` inside memory, so a list of them is and does. -/
theorem hostRequestsNeverGetStuck : Obligations.HostRequestsNeverGetStuck := by
  intro qs s h
  induction qs generalizing s with
  | nil => exact ⟨s, rfl, h⟩
  | cons q qs ih =>
    obtain ⟨t, hs, ht⟩ := serve_keeps_pcInside q h
    rw [serveAll_cons s qs hs]
    exact ih t ht

end Sys2Proof.Machine
